-- ==== Sys2Proof/Word.lean ====
section
/-! DEFINITION. The word types of the PID48 codec (00_scope.md R9, R10). -/

namespace Sys2Proof

/-- A byte: an 8-bit unsigned value (00_scope.md R10). A string is a list of bytes, leftmost first. -/
abbrev Byte := BitVec 8

/-- A `bits64` word: the host data word, PID_IN and PID_OUT (00_scope.md R9). -/
abbrev Word := BitVec 64

/-- A register number of the 8-bit register-number space (20_memory.md R50). -/
abbrev RegNum := BitVec 8

end Sys2Proof
end

