-- ==== Sys2Proof/Config.lean ====
section
/-! DEFINITION. The parameters of the block (00_scope.md R7) and its free values (10_state.md R40). -/

namespace Sys2Proof

/-- The least legal L_IN: the length of the longest ID2F output (00_scope.md R7, R8). -/
def Config.minLIn : Nat := 18

/-- The greatest legal L_IN (00_scope.md R7). -/
def Config.maxLIn : Nat := 64

/-- The value the spec takes for L_IN by default (00_scope.md R7). An instance of the block with another L_IN
is a state whose IN_BUF has another length (log entry 5). -/
def Config.defaultLIn : Nat := 64

/-- The number of bytes of OUT_BUF (10_state.md R34). -/
def Config.outBufSize : Nat := 18

/-- The `draw8` of 40_host_interface.md R102: what the n-th unspecified read returns when the register has 8 bits.
It has no body, so nothing can be proved of a drawn value (log entry 4). -/
opaque Config.draw8 : Nat → BitVec 8

/-- The `draw64` of 40_host_interface.md R102: what the n-th unspecified read returns when the register has 64 bits
(log entry 4). -/
opaque Config.draw64 : Nat → BitVec 64

end Sys2Proof
end

