-- ==== Sys2Proof/Syntax.lean ====
section
/-! DEFINITION. The commands of the PID48 codec: one constructor per row of spec/opcode_table.json. -/

namespace Sys2Proof

/-- The four commands of the opcode map (30_encoding.md R71). A command carries no operand fields: its operands are
the registers its rule names (R74). -/
inductive Instr where
  /-- FilenameToID: the string operand to a PID (41_filename_codec.md R140). -/
  | f2id
  /-- IDToFilename: PID_IN to a filename (41_filename_codec.md R150). -/
  | id2f
  /-- IDToCode: PID_IN to an 8-symbol code (42_compact_codec.md R174). -/
  | id2c
  /-- CodeToID: the string operand to a PID (42_compact_codec.md R181). -/
  | c2id
  deriving DecidableEq, Repr

end Sys2Proof
end

