-- ==== Sys2Proof/WellFormed.lean ====
section
/-! DEFINITION. Well-formedness of commands and of the block's parameter. -/

namespace Sys2Proof

/-- Every command is well formed: a command carries no operand field and no OP value is illegal
(30_encoding.md R73, R74). What can be ill formed is a CMD byte, which the decoder rejects. -/
def Instr.wellFormed : Instr → Bool
  | .f2id => true
  | .id2f => true
  | .id2c => true
  | .c2id => true

/-- The legal values of L_IN (00_scope.md R7). -/
def lInLegal (n : Nat) : Bool :=
  decide (Config.minLIn ≤ n) && decide (n ≤ Config.maxLIn)

end Sys2Proof
end

