-- ==== Sys2Proof/Decode.lean ====
section
/-! DEFINITION. The CMD8 format: decoding a CMD byte and encoding a command (30_encoding.md R70 to R74). -/

namespace Sys2Proof

/-- Why bytes are no command. -/
inductive DecodeError where
  /-- There is no byte to decode: every command is one CMD8 byte (30_encoding.md R70). -/
  | noByte
  /-- A reserved encoding, 0x04..0xFF: a CMD write of it is rejected with BAD_CMD (30_encoding.md R73). -/
  | reservedCommand (c : Byte)
  deriving DecidableEq, Repr

/-- `OP = CMD[1:0]` (30_encoding.md R70). -/
def opField (c : Byte) : BitVec 2 := c.extractLsb' 0 2

/-- `RSV = CMD[7:2]` (30_encoding.md R70). -/
def rsvField (c : Byte) : BitVec 6 := c.extractLsb' 2 6

/-- The opcode map, from OP to command (30_encoding.md R71). Every OP value names one. -/
def instrOfOp (op : BitVec 2) : Instr :=
  if op = 0 then .f2id
  else if op = 1 then .id2f
  else if op = 2 then .id2c
  else .c2id

/-- The opcode map, from command to OP (30_encoding.md R71). -/
def opOfInstr : Instr → BitVec 2
  | .f2id => 0
  | .id2f => 1
  | .id2c => 2
  | .c2id => 3

/-- Decoding of a CMD byte (30_encoding.md R72), total on the 256 values: a byte with RSV ≠ 0 is reserved. -/
def decodeByte (c : Byte) : Except DecodeError Instr :=
  if rsvField c = 0 then .ok (instrOfOp (opField c)) else .error (.reservedCommand c)

/-- Decoding of any bytes: the first byte is the command, the rest is returned (30_encoding.md R70: there is no other
length). -/
def decode : List Byte → Except DecodeError (Instr × List Byte)
  | [] => .error .noByte
  | c :: rest =>
    match decodeByte c with
    | .ok i => .ok (i, rest)
    | .error e => .error e

/-- The CMD byte of a command, `000000oo` (30_encoding.md R70, R71). -/
def encode (i : Instr) : Byte := 0#6 ++ opOfInstr i

/-- The bytes of an opcode-table word of `nbits` bits, first byte least significant; at least the one byte a command
has, the bits above `nbits` being zero (log entry 13). -/
def tableWordBytes (nbits w : Nat) : List Byte :=
  (List.range (max 1 (nbits / 8))).map fun k => BitVec.ofNat 8 (w % 2 ^ nbits / 2 ^ (8 * k))

/-- What the decoder reads from an opcode-table word: the command, if the bytes are one command and nothing more. -/
def decodeTableWord (nbits w : Nat) : Option Instr :=
  match decode (tableWordBytes nbits w) with
  | .ok (i, []) => some i
  | .ok (_, _ :: _) => none
  | .error _ => none

end Sys2Proof
end

