-- ==== Sys2Proof/Machine/State.lean ====
section
/-! DEFINITION. The state of the machine (10_state.md), the state after reset (70_reset_and_hazards.md R220), and the
reasons a step can stop. -/

namespace Sys2Proof.Machine

/-- PHASE (10_state.md R21), exposed as STATUS.BUSY. -/
inductive Phase where
  | idle
  | busy
  deriving DecidableEq, Repr

/-- STATUS.CAUSE (10_state.md R26; 60_exceptions.md R200). -/
inductive Cause where
  /-- Code 0: no error. -/
  | none
  /-- Code 1: the function layer's malformed input, raised at completion. -/
  | malformed
  /-- Code 2: a reserved CMD byte, raised at the CMD write. -/
  | badCmd
  /-- Code 3: IN_LEN > L_IN for F2ID or C2ID, raised at the CMD write. -/
  | badLen
  deriving DecidableEq, Repr

/-- The two agents of 10_state.md R20. -/
inductive Agent where
  | host
  | engine
  deriving DecidableEq, Repr

/-- What a register number names (10_state.md R24, R35; 20_memory.md R52). -/
inductive Reg where
  | cmd
  | status
  | inLen
  | outLen
  | pidIn
  | pidOut
  | param
  | inBuf (i : Nat)
  | outBuf (i : Nat)
  | reserved
  deriving DecidableEq, Repr

/-- One operation of the host (30_encoding.md R86, R87): the transactions WR, RD and RESET, and the two
pseudo-operations whose course depends on a value read (log entry 9). CMD, CMD.RAW, PUTS and RUN expand to these. -/
inductive HostOp where
  /-- `WR r, d`: HostWrite(r, d) (40_host_interface.md R101). -/
  | write (r : RegNum) (d : Word)
  /-- `RD r`: HostRead(r) (40_host_interface.md R102). -/
  | read (r : RegNum)
  /-- `RESET`: the Reset step (70_reset_and_hazards.md R220). -/
  | reset
  /-- `WAIT`: read STATUS until DONE = 1 (30_encoding.md R87). -/
  | wait
  /-- `GETS`: read OUT_LEN and then that many bytes of OUT_BUF (30_encoding.md R87). -/
  | gets
  deriving DecidableEq, Repr

/-- What one host read returned: the register number and the 64-bit word, the `-> v` of 40_host_interface.md R102. -/
structure ReadBeat where
  reg : RegNum
  value : Word
  deriving DecidableEq, Repr

/-- The state: the complete architectural state of 10_state.md R38, then four fields of the model's own that hold the
host agent (log entries 1, 3, 4). L_IN is the length of `inBuf` (log entry 5). -/
structure State where
  /-- PHASE (R21). -/
  phase : Phase
  /-- LOP: OP of the last accepted command (R21). -/
  lop : BitVec 2
  /-- STATUS.DONE (R26). -/
  done : Bool
  /-- STATUS.OK (R26). -/
  ok : Bool
  /-- STATUS.CAUSE (R26). -/
  cause : Cause
  /-- IN_LEN, register 0x02 (R29). -/
  inLen : BitVec 8
  /-- PID_IN, register 0x04 (R31). -/
  pidIn : Word
  /-- IN_BUF[0..L_IN-1], registers 0x40.. (R34). Its length is L_IN, which PARAM reads (R33). -/
  inBuf : List Byte
  /-- PID_OUT, register 0x05 (R32). -/
  pidOut : Word
  /-- OUT_LEN, register 0x03 (R30). -/
  outLen : BitVec 8
  /-- OUT_BUF[0..17], registers 0x80..0x91 (R34). -/
  outBuf : List Byte
  /-- The model's own: the operations the host has still to issue, next one first (log entry 1). -/
  host : List HostOp
  /-- The model's own: who takes the next turns; once empty, the engine goes first while BUSY (log entry 1). -/
  schedule : List Agent
  /-- The model's own: what the host's reads have returned, oldest first (log entry 3). -/
  reads : List ReadBeat
  /-- The model's own: how many unspecified values have been drawn (log entry 4). -/
  draws : Nat
  deriving DecidableEq, Repr

/-- The reasons a step can end in a fault: none. No cause traps (60_exceptions.md R205), every step is enabled in every
state but Complete, which needs BUSY, and no behaviour of the spec is stuck (93_implementation_defined.md, Part 1; log
entry 11). -/
inductive Fault where
  deriving DecidableEq, Repr

/-- The reasons a step can end in a refusal. -/
inductive Refusal where
  /-- The command has no meaning in the model. Raised only by a rejected arm of `exec`, of which there is none. Safe: the
  machine stops where the hardware goes on. -/
  | notModelled (mnemonic : String)
  deriving DecidableEq, Repr

/-- The state after Reset of an instance whose IN_BUF holds `lIn` bytes (70_reset_and_hazards.md R220), its host having
nothing to issue. -/
def State.resetWith (lIn : Nat) : State where
  phase := .idle
  lop := 0
  done := false
  ok := false
  cause := .none
  inLen := 0
  pidIn := 0
  inBuf := List.replicate lIn 0
  pidOut := 0
  outLen := 0
  outBuf := List.replicate Config.outBufSize 0
  host := []
  schedule := []
  reads := []
  draws := 0

/-- The machine right after reset, with the spec's default L_IN = 64 (00_scope.md R7; 70_reset_and_hazards.md R220). -/
def State.reset : State := State.resetWith Config.defaultLIn

end Sys2Proof.Machine
end

