-- ==== Sys2Proof/Machine/Flags.lean ====
section
/-! DEFINITION. The STATUS fields: their codes, the STATUS byte, and the CAUSE a success bit gives. -/

namespace Sys2Proof.Machine

/-- The code of a cause (60_exceptions.md R200). -/
def causeCode : Cause → BitVec 2
  | .none => 0
  | .malformed => 1
  | .badCmd => 2
  | .badLen => 3

/-- `cause <- (okbit == 1) ? NONE : MALFORMED` of the two write-backs (40_host_interface.md R109, R110). -/
def causeOfOk : Bool → Cause
  | true => .none
  | false => .malformed

/-- STATUS.BUSY (10_state.md R26). -/
def busyBit (s : State) : Bool := s.phase == .busy

/-- The STATUS byte: `zext_8(cause[1:0] ++ 0b0 ++ ok ++ done ++ (phase == BUSY))` (10_state.md R38). -/
def State.statusByte (s : State) : Byte :=
  0#2 ++ causeCode s.cause ++ 0#1 ++ BitVec.ofBool s.ok ++ BitVec.ofBool s.done ++ BitVec.ofBool (busyBit s)

end Sys2Proof.Machine
end

