-- ==== Sys2Proof/Machine/Operands.lean ====
section
/-! DEFINITION. How a command's operands are put together from registers (30_encoding.md R74), and what a register
number names (10_state.md R24). -/

namespace Sys2Proof.Machine

/-- L_IN, the capacity of IN_BUF (00_scope.md R7; 10_state.md R33). -/
def State.lIn (s : State) : Nat := s.inBuf.length

/-- The string operand of F2ID and C2ID, `IN_BUF[0] ++ ... ++ IN_BUF[IN_LEN-1]` (30_encoding.md R74), for
IN_LEN ≤ L_IN, which every accepted command of the two has (40_host_interface.md R106; log entry 7). -/
def State.stringOperand (s : State) : List Byte := s.inBuf.take s.inLen.toNat

/-- The word operand of ID2F and ID2C: PID_IN as it is (30_encoding.md R74). -/
def State.wordOperand (s : State) : Word := s.pidIn

/-- The commands that take the string operand, F2ID and C2ID (30_encoding.md R71, R74). -/
def readsString : Instr → Bool
  | .f2id => true
  | .id2f => false
  | .id2c => false
  | .c2id => true

/-- The first register number of IN_BUF (10_state.md R24). -/
def inBufBase : Nat := 0x40

/-- The first register number of OUT_BUF (10_state.md R24). -/
def outBufBase : Nat := 0x80

/-- What a register number names in a block with capacity `lIn` (10_state.md R24, R35; 20_memory.md R52). -/
def regOf (lIn : Nat) (r : RegNum) : Reg :=
  if r = 0x00 then .cmd
  else if r = 0x01 then .status
  else if r = 0x02 then .inLen
  else if r = 0x03 then .outLen
  else if r = 0x04 then .pidIn
  else if r = 0x05 then .pidOut
  else if r = 0x06 then .param
  else if inBufBase ≤ r.toNat ∧ r.toNat < inBufBase + lIn then .inBuf (r.toNat - inBufBase)
  else if outBufBase ≤ r.toNat ∧ r.toNat < outBufBase + Config.outBufSize then .outBuf (r.toNat - outBufBase)
  else .reserved

end Sys2Proof.Machine
end

