-- ==== Sys2Proof/Machine/Ops.lean ====
section
/-! DEFINITION. The named operations over the state: accepting and rejecting a command, raising a cause, the two
write-backs, the end of a command, Reset; and the fields of a packed identifier. -/

namespace Sys2Proof.Machine

/-! ### The packed identifier -/

/-- `class(pid) = pid[47:44]` (30_encoding.md R77). -/
def pidClass (pid : Word) : BitVec 4 := pid.extractLsb' 44 4

/-- `timestamp(pid) = pid[43:12]` (30_encoding.md R77). -/
def pidTimestamp (pid : Word) : BitVec 32 := pid.extractLsb' 12 32

/-- `sequence(pid) = pid[11:0]` (30_encoding.md R77). -/
def pidSequence (pid : Word) : BitVec 12 := pid.extractLsb' 0 12

/-- `Pack(cls, ts, seq)`: `(class << 44) | (timestamp << 12) | sequence` (30_encoding.md R76). -/
def pack (cls : BitVec 4) (ts : BitVec 32) (seq : BitVec 12) : Word :=
  (cls.setWidth 64 <<< 44) ||| (ts.setWidth 64 <<< 12) ||| seq.setWidth 64

/-- The low 48 bits, `p & 0xFFFFFFFFFFFF`: the significant part of a PID (00_scope.md R6). -/
def low48 (p : Word) : Word := p &&& 0xFFFFFFFFFFFF#64

/-- `Valid(pid)` (30_encoding.md R78). No command checks it as a whole. -/
def validPid (pid : Word) : Bool :=
  (pidClass pid == 0 || pidClass pid == 1) && pidTimestamp pid != 0 && pid.extractLsb' 48 16 == 0

/-! ### Result registers and causes -/

/-- OUT_BUF with the string `t` at its start and 0 in every byte after it (40_host_interface.md R110). -/
def outBufHolding (t : List Byte) : List Byte :=
  (t ++ List.replicate Config.outBufSize 0).take Config.outBufSize

/-- Every result register at 0: the sentinels of both kinds of command (40_host_interface.md R107). -/
def State.zeroResults (s : State) : State :=
  { s with pidOut := 0, outLen := 0, outBuf := List.replicate Config.outBufSize 0 }

/-- `Reject(k)` (40_host_interface.md R107), the one way a cause is raised at a CMD write: nothing is saved and control
goes nowhere (60_exceptions.md R205). -/
def State.reject (s : State) (k : Cause) : State :=
  { s.zeroResults with done := true, ok := false, cause := k }

/-- Acceptance of a command by a CMD write (40_host_interface.md R104): STATUS reads 0x01. -/
def State.accept (s : State) (op : BitVec 2) : State :=
  { s with phase := .busy, lop := op, done := false, ok := false, cause := .none }

/-- `WBWord(p, okbit)`, the write-back of a PID result (40_host_interface.md R109). It raises MALFORMED when the bit is
0. -/
def State.wbWord (s : State) (p : Word) (okbit : Bool) : State :=
  { s.zeroResults with pidOut := p, ok := okbit, cause := causeOfOk okbit }

/-- `WBStr(t, okbit)`, the write-back of a string result (40_host_interface.md R110). It raises MALFORMED when the bit
is 0. -/
def State.wbStr (s : State) (t : List Byte) (okbit : Bool) : State :=
  { s with pidOut := 0, outLen := BitVec.ofNat 8 t.length, outBuf := outBufHolding t, ok := okbit
           cause := causeOfOk okbit }

/-- The end of Complete: `phase <- IDLE; done <- 1` (40_host_interface.md R108). -/
def State.finish (s : State) : State := { s with phase := .idle, done := true }

/-- The Reset step on the block (70_reset_and_hazards.md R220). L_IN is a constant, so IN_BUF keeps its length; the
host's own fields are no part of the block. -/
def State.blockReset (s : State) : State :=
  { s with
    phase := .idle, lop := 0, done := false, ok := false, cause := .none, inLen := 0, outLen := 0, pidIn := 0
    pidOut := 0, inBuf := List.replicate s.lIn 0, outBuf := List.replicate Config.outBufSize 0 }

end Sys2Proof.Machine
end

