-- ==== Sys2Proof/Machine/Alphabet.lean ====
section
/-! DEFINITION. The constant tables ALPHA and INV of the compact code (30_encoding.md R80, R81). No transaction reads or
writes them. -/

namespace Sys2Proof.Machine

/-- ALPHA, the ordered table of 64 symbols, row by row as 30_encoding.md R80 gives it. -/
def alphabet : List Byte :=
  -- 0..15: 0123456789ABCDEF
  [0x30, 0x31, 0x32, 0x33, 0x34, 0x35, 0x36, 0x37, 0x38, 0x39, 0x41, 0x42, 0x43, 0x44, 0x45, 0x46]
  -- 16..31: GHIJKLMNOPQRSTUV
  ++ [0x47, 0x48, 0x49, 0x4A, 0x4B, 0x4C, 0x4D, 0x4E, 0x4F, 0x50, 0x51, 0x52, 0x53, 0x54, 0x55, 0x56]
  -- 32..47: WXYZabcdefghijkl
  ++ [0x57, 0x58, 0x59, 0x5A, 0x61, 0x62, 0x63, 0x64, 0x65, 0x66, 0x67, 0x68, 0x69, 0x6A, 0x6B, 0x6C]
  -- 48..63: mnopqrstuvwxyz-_
  ++ [0x6D, 0x6E, 0x6F, 0x70, 0x71, 0x72, 0x73, 0x74, 0x75, 0x76, 0x77, 0x78, 0x79, 0x7A, 0x2D, 0x5F]

/-- `ALPHA[v]` (30_encoding.md R80). -/
def alpha (v : BitVec 6) : Byte := alphabet.getD v.toNat 0

/-- `INV(b)`: the 6-bit value of an alphabet byte, none for the other 192 bytes (30_encoding.md R81). -/
def alphaInv (b : Byte) : Option (BitVec 6) :=
  if 0x30 ≤ b.toNat ∧ b.toNat ≤ 0x39 then some (BitVec.ofNat 6 (b.toNat - 0x30))
  else if 0x41 ≤ b.toNat ∧ b.toNat ≤ 0x5A then some (BitVec.ofNat 6 (b.toNat - 0x41 + 10))
  else if 0x61 ≤ b.toNat ∧ b.toNat ≤ 0x7A then some (BitVec.ofNat 6 (b.toNat - 0x61 + 36))
  else if b = 0x2D then some 62
  else if b = 0x5F then some 63
  else none

/-- `value(c) = sum over i of INV(c[i]) * 64^(7-i)` (30_encoding.md R82), a byte outside the alphabet counting 0. -/
def codeValue : List Byte → Nat
  | [] => 0
  | b :: t => ((alphaInv b).getD 0).toNat * 64 ^ t.length + codeValue t

end Sys2Proof.Machine
end

