-- ==== Sys2Proof/Machine/Compact.lean ====
section
/-! DEFINITION. The compact codec: the functions ID2C and C2ID and the two commands (42_compact_codec.md). -/

namespace Sys2Proof.Machine

/-- The number of symbols of a compact code (42_compact_codec.md R172, R176). -/
def codeLength : Nat := 8

/-- The loop of ID2C with `k` iterations left: `v mod 64` is the next symbol leftwards, `v div 64` goes on
(42_compact_codec.md R170). -/
def encodeSymbols : Nat → Word → List Byte → List Byte
  | 0, _, acc => acc
  | k + 1, v, acc => encodeSymbols k (v / 64#64) (alpha ((v % 64#64).setWidth 6) :: acc)

/-- The function ID2C, IDToCode (42_compact_codec.md R170): exactly 8 iterations; it never fails (R173). -/
def id2c (pid : Word) : List Byte × Bool := (encodeSymbols codeLength pid [], true)

/-- The loop of C2ID: `acc <- (acc << 6) | INV(b)`, left to right, stopping at a byte outside the alphabet
(42_compact_codec.md R175, R177). -/
def decodeSymbols : List Byte → Word → Option Word
  | [], acc => some acc
  | b :: s, acc =>
    match alphaInv b with
    | none => none
    | some d => decodeSymbols s ((acc <<< 6) ||| d.setWidth 64)

/-- The function C2ID, CodeToID (42_compact_codec.md R175): the length check (R176), then the loop from 0 (R184). -/
def c2id (s : List Byte) : Word × Bool :=
  if s.length = codeLength then
    match decodeSymbols s 0 with
    | some p => (p, true)
    | none => (0, false)
  else (0, false)

/-- ID2C (42_compact_codec.md R174): the encoder on PID_IN, written back as a string; then the end of the command
(40_host_interface.md R108). -/
def execId2c (s : State) : Host.Outcome State Fault Refusal :=
  .next (s.wbStr (id2c s.wordOperand).1 (id2c s.wordOperand).2).finish

/-- C2ID (42_compact_codec.md R181): the decoder on the string operand, written back as a word; then the end of the
command (40_host_interface.md R108). -/
def execC2id (s : State) : Host.Outcome State Fault Refusal :=
  .next (s.wbWord (c2id s.stringOperand).1 (c2id s.stringOperand).2).finish

end Sys2Proof.Machine
end

