-- ==== Sys2Proof/Machine/Numerals.lean ====
section
/-! DEFINITION. Numerals of bases 10 and 16 (00_scope.md R13). -/

namespace Sys2Proof.Machine

/-- `DecDigit(b)` (00_scope.md R13). -/
def isDecDigit (b : Byte) : Bool := decide (0x30 ≤ b.toNat) && decide (b.toNat ≤ 0x39)

/-- `decval(b)` (00_scope.md R13). -/
def decVal (b : Byte) : Nat := b.toNat - 0x30

/-- `HexDigit(b)`, of either case (00_scope.md R13). -/
def isHexDigit (b : Byte) : Bool :=
  isDecDigit b || (decide (0x41 ≤ b.toNat) && decide (b.toNat ≤ 0x46))
    || (decide (0x61 ≤ b.toNat) && decide (b.toNat ≤ 0x66))

/-- `hexval(b)` (00_scope.md R13). -/
def hexVal (b : Byte) : Nat :=
  if isDecDigit b then b.toNat - 0x30
  else if b.toNat ≤ 0x46 then b.toNat - 0x41 + 10
  else b.toNat - 0x61 + 10

/-- `sum over i of digit(t[i]) * base^(len(t)-1-i)`, an unbounded Nat (00_scope.md R13). -/
def numeralValue (digit : Byte → Nat) (base : Nat) : List Byte → Nat
  | [] => 0
  | b :: t => digit b * base ^ t.length + numeralValue digit base t

/-- `DecValue(t)` (00_scope.md R13). -/
def decValue (t : List Byte) : Nat := numeralValue decVal 10 t

/-- `HexValue(t)` (00_scope.md R13). -/
def hexValue (t : List Byte) : Nat := numeralValue hexVal 16 t

/-- The digit of value `d` < 16, letters in uppercase (00_scope.md R13). -/
def digitSymbol (d : Nat) : Byte :=
  if d < 10 then BitVec.ofNat 8 (0x30 + d) else BitVec.ofNat 8 (0x41 + (d - 10))

/-- The shortest numeral of `n` in a base from 2 to 16, given fuel above its number of digits. -/
def numeral (base : Nat) : Nat → Nat → List Byte
  | 0, _ => []
  | fuel + 1, n =>
    if n < base then [digitSymbol n] else numeral base fuel (n / base) ++ [digitSymbol (n % base)]

/-- `Dec(n)`, the shortest decimal numeral; `Dec(0) = "0"` (00_scope.md R13). -/
def decNumeral (n : Nat) : List Byte := numeral 10 (n + 1) n

/-- `HexU(n)`, the shortest uppercase hexadecimal numeral; `HexU(0) = "0"` (00_scope.md R13). -/
def hexNumeral (n : Nat) : List Byte := numeral 16 (n + 1) n

end Sys2Proof.Machine
end

