-- ==== Sys2Proof/Machine/Filename.lean ====
section
/-! DEFINITION. The filename codec: the functions F2ID and ID2F and the two commands (41_filename_codec.md). -/

namespace Sys2Proof.Machine

/-- The separator `'.'`, 0x2E (00_scope.md R10). -/
def dot : Byte := 0x2E

/-- The class letter `'M'`, class 0 (30_encoding.md R79). -/
def letterM : Byte := 0x4D

/-- The class letter `'G'`, class 1 (30_encoding.md R79). -/
def letterG : Byte := 0x47

/-- The literal of segment 2, `'A'` (41_filename_codec.md R135). -/
def letterA : Byte := 0x41

/-! ### F2ID -/

/-- The segments of a string split at its first `k` dots; the last keeps the rest, further dots included
(41_filename_codec.md R131). -/
def splitDots : Nat → List Byte → List (List Byte)
  | _, [] => [[]]
  | 0, b :: s => [b :: s]
  | k + 1, b :: s =>
    if b = dot then [] :: splitDots k s
    else
      match splitDots (k + 1) s with
      | [] => [[b]]
      | g :: gs => (b :: g) :: gs

/-- `SplitN(s)`: at most 4 segments (41_filename_codec.md R131). -/
def splitN (s : List Byte) : List (List Byte) := splitDots 3 s

/-- Segment 0: exactly "M" or "G" (41_filename_codec.md R133). -/
def parseClass (seg : List Byte) : Option (BitVec 4) :=
  if seg = [letterM] then some 0 else if seg = [letterG] then some 1 else none

/-- Segment 1: non-empty decimal digits whose value is in 1..0xFFFFFFFF (41_filename_codec.md R134). -/
def parseTimestamp (seg : List Byte) : Option (BitVec 32) :=
  if seg = [] ∨ seg.all isDecDigit = false then none
  else if decValue seg = 0 ∨ 0xFFFFFFFF < decValue seg then none
  else some (BitVec.ofNat 32 (decValue seg))

/-- Segment 3: 0 if empty, else hex digits whose value is at most 0xFFF (41_filename_codec.md R136). -/
def parseSequence (seg : List Byte) : Option (BitVec 12) :=
  if seg = [] then some 0
  else if seg.all isHexDigit = false then none
  else if 0xFFF < hexValue seg then none
  else some (BitVec.ofNat 12 (hexValue seg))

/-- The PID of the four segments, if every check holds (41_filename_codec.md R130, R137). -/
def parseSegments (seg0 seg1 seg2 seg3 : List Byte) : Option Word :=
  match parseClass seg0, parseTimestamp seg1, parseSequence seg3 with
  | some cls, some ts, some seq => if seg2 = [letterA] then some (pack cls ts seq) else none
  | _, _, _ => none

/-- The PID a filename stands for; none is malformed input. A missing fourth segment is an empty one
(41_filename_codec.md R132, R136). -/
def parseFilename (s : List Byte) : Option Word :=
  match splitN s with
  | [seg0, seg1, seg2] => parseSegments seg0 seg1 seg2 []
  | [seg0, seg1, seg2, seg3] => parseSegments seg0 seg1 seg2 seg3
  | _ => none

/-- The function F2ID, FilenameToID (41_filename_codec.md R130): the PID and 1, or the sentinel and 0. -/
def f2id (s : List Byte) : Word × Bool :=
  match parseFilename s with
  | some p => (p, true)
  | none => (0, false)

/-! ### ID2F -/

/-- The letter of a class; none for 2..15 (41_filename_codec.md R146). -/
def classLetter (cls : BitVec 4) : Option Byte :=
  if cls = 0 then some letterM else if cls = 1 then some letterG else none

/-- `letter "." Dec(ts) "." "A" "." HexU(seq)` (41_filename_codec.md R147). -/
def renderFilename (letter : Byte) (ts seq : Nat) : List Byte :=
  [letter, dot] ++ decNumeral ts ++ [dot, letterA, dot] ++ hexNumeral seq

/-- The function ID2F, IDToFilename (41_filename_codec.md R145): bits 63:48 are not read. -/
def id2f (pid : Word) : List Byte × Bool :=
  match classLetter (pidClass pid) with
  | some letter => (renderFilename letter (pidTimestamp pid).toNat (pidSequence pid).toNat, true)
  | none => ([], false)

/-! ### The language of filenames -/

/-- The language of 30_encoding.md R83: `classch "." ts "." "A" [ "." [ seq ] ]`, with the value constraints. -/
def IsFilename (s : List Byte) : Prop :=
  ∃ (c : Byte) (ts : List Byte), (c = letterM ∨ c = letterG) ∧ ts ≠ [] ∧ (∀ b ∈ ts, isDecDigit b = true)
    ∧ 1 ≤ decValue ts ∧ decValue ts ≤ 0xFFFFFFFF
    ∧ (s = [c, dot] ++ ts ++ [dot, letterA]
      ∨ ∃ q : List Byte, (∀ b ∈ q, isHexDigit b = true) ∧ hexValue q ≤ 0xFFF
          ∧ s = [c, dot] ++ ts ++ [dot, letterA, dot] ++ q)

/-- `canon(s)` of an accepted filename (41_filename_codec.md R153): its class letter, its timestamp and its sequence
written again in shortest form. -/
def canonFilename (s : List Byte) : List Byte :=
  match splitN s with
  | [seg0, seg1, _] => seg0 ++ [dot] ++ decNumeral (decValue seg1) ++ [dot, letterA, dot] ++ hexNumeral 0
  | [seg0, seg1, _, seg3] =>
    seg0 ++ [dot] ++ decNumeral (decValue seg1) ++ [dot, letterA, dot] ++ hexNumeral (hexValue seg3)
  | _ => []

/-! ### The commands -/

/-- F2ID (41_filename_codec.md R140): the parser on the string operand, written back as a word; then the end of the
command (40_host_interface.md R108). -/
def execF2id (s : State) : Host.Outcome State Fault Refusal :=
  .next (s.wbWord (f2id s.stringOperand).1 (f2id s.stringOperand).2).finish

/-- ID2F (41_filename_codec.md R150): the formatter on PID_IN, written back as a string; then the end of the command
(40_host_interface.md R108). -/
def execId2f (s : State) : Host.Outcome State Fault Refusal :=
  .next (s.wbStr (id2f s.wordOperand).1 (id2f s.wordOperand).2).finish

end Sys2Proof.Machine
end

