-- ==== Sys2Proof/Machine/Dispatch.lean ====
section
/-! DEFINITION. exec: one arm per command (40_host_interface.md R108). -/

namespace Sys2Proof.Machine

def exec (i : Instr) (s : State) : Host.Outcome State Fault Refusal :=
  match i with
  | .f2id => Sys2Proof.Machine.execF2id s
  | .id2f => Sys2Proof.Machine.execId2f s
  | .id2c => Sys2Proof.Machine.execId2c s
  | .c2id => Sys2Proof.Machine.execC2id s

end Sys2Proof.Machine
end

