-- ==== Sys2Proof/Machine/HostPort.lean ====
section
/-! DEFINITION. The host's transactions: HostWrite with the issue of a command, HostRead, Reset, the program notation and
the host's turn (40_host_interface.md R101 to R107; 30_encoding.md R86, R87). -/

namespace Sys2Proof.Machine

/-! ### Writes and the issue of a command -/

/-- `CmdWrite(c)` while IDLE (40_host_interface.md R104): BAD_CMD for a reserved byte (R105), then BAD_LEN for a string
command with IN_LEN > L_IN (R106), else acceptance. -/
def State.cmdWrite (s : State) (c : Byte) : State :=
  match decodeByte c with
  | .error _ => s.reject .badCmd
  | .ok i =>
    if readsString i = true ∧ s.lIn < s.inLen.toNat then s.reject .badLen else s.accept (opOfInstr i)

/-- `HostWrite(r, d)` (40_host_interface.md R101): dropped while BUSY (R103); a register narrower than 64 bits takes the
low bits of `d`; read-only and reserved numbers ignore the write. -/
def State.hostWrite (s : State) (r : RegNum) (d : Word) : State :=
  match s.phase with
  | .busy => s
  | .idle =>
    match regOf s.lIn r with
    | .cmd => s.cmdWrite (d.setWidth 8)
    | .inLen => { s with inLen := d.setWidth 8 }
    | .pidIn => { s with pidIn := d }
    | .inBuf i => { s with inBuf := s.inBuf.set i (d.setWidth 8) }
    | .status => s
    | .outLen => s
    | .pidOut => s
    | .param => s
    | .outBuf _ => s
    | .reserved => s

/-! ### Reads -/

/-- The registers whose read is unspecified while BUSY: the result registers (10_state.md R40). -/
def isResultReg : Reg → Bool
  | .pidOut => true
  | .outLen => true
  | .outBuf _ => true
  | .cmd => false
  | .status => false
  | .inLen => false
  | .pidIn => false
  | .param => false
  | .inBuf _ => false
  | .reserved => false

/-- The stored value of a register, zero-extended to 64 bits (40_host_interface.md R102). CMD and reserved numbers read
0. -/
def State.storedValue (s : State) : Reg → Word
  | .cmd => 0
  | .status => s.statusByte.setWidth 64
  | .inLen => s.inLen.setWidth 64
  | .outLen => s.outLen.setWidth 64
  | .pidIn => s.pidIn
  | .pidOut => s.pidOut
  | .param => BitVec.ofNat 64 s.lIn
  | .inBuf i => (s.inBuf.getD i 0).setWidth 64
  | .outBuf i => (s.outBuf.getD i 0).setWidth 64
  | .reserved => 0

/-- The free value a read of a result register returns while BUSY: `draw64` for PID_OUT, `draw8` for the 8-bit ones
(40_host_interface.md R102; log entry 4). -/
def State.drawnValue (s : State) : Reg → Word
  | .pidOut => Config.draw64 s.draws
  | _ => (Config.draw8 s.draws).setWidth 64

/-- Whether a read of this register is unspecified now (10_state.md R40). -/
def State.readIsDrawn (s : State) (reg : Reg) : Bool := busyBit s && isResultReg reg

/-- The word `HostRead(r)` returns (40_host_interface.md R102). -/
def State.readValue (s : State) (r : RegNum) : Word :=
  if s.readIsDrawn (regOf s.lIn r) = true then s.drawnValue (regOf s.lIn r) else s.storedValue (regOf s.lIn r)

/-- `HostRead(r) -> v` (40_host_interface.md R102): no register changes. The model records the value returned, and moves
to a fresh free value after one was drawn (log entries 3, 4). -/
def State.hostRead (s : State) (r : RegNum) : State :=
  { s with
    reads := s.reads ++ [⟨r, s.readValue r⟩]
    draws := if s.readIsDrawn (regOf s.lIn r) = true then s.draws + 1 else s.draws }

/-! ### Program notation (30_encoding.md R86, R87) -/

/-- The register number of CMD. -/
def cmdNumber : RegNum := 0x00

/-- The register number of STATUS. -/
def statusNumber : RegNum := 0x01

/-- The register number of IN_LEN. -/
def inLenNumber : RegNum := 0x02

/-- The register number of OUT_LEN. -/
def outLenNumber : RegNum := 0x03

/-- The register number of PID_IN. -/
def pidInNumber : RegNum := 0x04

/-- The register number of PID_OUT. -/
def pidOutNumber : RegNum := 0x05

/-- The register number of PARAM. -/
def paramNumber : RegNum := 0x06

/-- `CMD.RAW c`: a write of any byte to CMD (30_encoding.md R86). -/
def cmdRawOp (c : Byte) : HostOp := .write cmdNumber (c.setWidth 64)

/-- `CMD <mnemonic>`: a write of the command's CMD byte (30_encoding.md R86). -/
def cmdOp (i : Instr) : HostOp := cmdRawOp (encode i)

/-- The register numbers from `base` for indices 0, 1, ... up to `n`, as far as the 8-bit space goes (log entry 8). -/
def windowNumbers (base n : Nat) : List RegNum :=
  (List.range (min n (256 - base))).map fun i => BitVec.ofNat 8 (base + i)

/-- `PUTS "t"`: the bytes into IN_BUF, then the length into IN_LEN (30_encoding.md R87; log entry 8). -/
def putsOps (t : List Byte) : List HostOp :=
  ((windowNumbers inBufBase t.length).zip t).map (fun e => HostOp.write e.1 (e.2.setWidth 64))
    ++ [.write inLenNumber (BitVec.ofNat 64 t.length)]

/-- The reads of `GETS` after OUT_LEN returned `n`: OUT_BUF[0] to OUT_BUF[n-1] (30_encoding.md R87; log entry 8). -/
def getsReads (n : Nat) : List HostOp := (windowNumbers outBufBase n).map HostOp.read

/-- `RUN <mnemonic>`: CMD, then WAIT (30_encoding.md R87). -/
def runOps (i : Instr) : List HostOp := [cmdOp i, .wait]

/-! ### The host's turn -/

/-- One operation of the host, taken off its list. WAIT reads STATUS and stays first in the list while DONE = 0; GETS
reads OUT_LEN and becomes the reads of that many bytes (30_encoding.md R87; log entry 9). -/
def State.hostOp (s : State) : HostOp → State
  | .write r d => s.hostWrite r d
  | .read r => s.hostRead r
  | .reset => s.blockReset
  | .wait =>
    if (s.readValue statusNumber).getLsbD 1 = true then s.hostRead statusNumber
    else { s.hostRead statusNumber with host := .wait :: s.host }
  | .gets => { s.hostRead outLenNumber with host := getsReads (s.readValue outLenNumber).toNat ++ s.host }

/-- The host's turn: its next operation, if it has one to issue (log entry 2). -/
def State.hostTurn (s : State) : State :=
  match s.host with
  | [] => s
  | op :: rest => { s with host := rest }.hostOp op

/-! ### Placing a command where the next step runs it -/

/-- The schedule that gives the next turn to agent `a`: an empty one does so already where `a` is the agent it falls to
(the engine while BUSY, the host while IDLE), and stays empty. -/
def turnFirst (a : Agent) : List Agent → List Agent
  | [] => []
  | x :: rest => a :: x :: rest

/-- The state in which the very next step completes command `i`: `i` accepted, the engine's turn (log entry 6). -/
def State.stageCommand (s : State) (i : Instr) : State :=
  { s.accept (opOfInstr i) with schedule := turnFirst .engine s.schedule }

/-- The state in which the very next step is the host's write of the byte `c` to CMD (log entry 6): used for bytes that
are no command. -/
def State.stageCmdWrite (s : State) (c : Byte) : State :=
  { s with phase := .idle, host := cmdRawOp c :: s.host, schedule := turnFirst .host s.schedule }

end Sys2Proof.Machine
end

