-- ==== Sys2Proof/Machine/Engine.lean ====
section
/-! DEFINITION. The engine's Complete step (40_host_interface.md R108) and the interleaving of the two agents (R100; log
entries 1, 2). -/

namespace Sys2Proof.Machine

/-- `Complete` (40_host_interface.md R108): runs the command named by LOP. Each command's meaning holds its write-back and
the end of the command. -/
def State.complete (s : State) : Host.Outcome State Fault Refusal := exec (instrOfOp s.lop) s

/-- The engine's turn: Complete, enabled exactly while BUSY (40_host_interface.md R100); otherwise nothing. -/
def State.engineTurn (s : State) : Host.Outcome State Fault Refusal :=
  match s.phase with
  | .busy => s.complete
  | .idle => .next s

/-- Who takes the next turn: the agent the schedule names; once it is empty, the engine while BUSY (so that Complete is
fair, 40_host_interface.md R111), else the host. -/
def State.nextAgent (s : State) : Agent :=
  match s.schedule with
  | a :: _ => a
  | [] =>
    match s.phase with
    | .busy => .engine
    | .idle => .host

/-- One turn of one agent, the schedule moving on. -/
def State.takeTurn (s : State) : Host.Outcome State Fault Refusal :=
  match s.nextAgent with
  | .engine => { s with schedule := s.schedule.tail }.engineTurn
  | .host => .next { s with schedule := s.schedule.tail }.hostTurn

end Sys2Proof.Machine
end

