-- ==== Sys2Proof/Machine/Step.lean ====
section
/-! DEFINITION. The step, and how a command is placed so that the next step runs it. -/

namespace Sys2Proof.Machine

/-- One step of the machine: one turn of one agent (40_host_interface.md R100). -/
def step (s : State) : Host.Outcome State Fault Refusal := s.takeTurn

/-- `s` with the opcode-table word `w` placed where the next step runs it (log entry 6). The block fetches no
instructions (10_state.md R21): what the engine runs next is the accepted command in LOP, so a command's word is placed as
an accepted command with the engine's turn; a word that is no command is placed as the host's next CMD write, which the
block rejects. -/
def State.withFetchWord (s : State) (nbits w : Nat) : State :=
  match decodeTableWord nbits w with
  | some i => s.stageCommand i
  | none => s.stageCmdWrite (BitVec.ofNat 8 w)

end Sys2Proof.Machine
end

