-- ==== Sys2Proof/Safety.lean ====
section
/-! DEFINITION. What a legal state is: the invariants the spec states of the registers, each as a decidable predicate. -/

namespace Sys2Proof.Machine

/-- The STATUS invariants (10_state.md R27): (a) BUSY = 1 implies DONE = 0, OK = 0 and CAUSE = NONE; (b) OK = 1 iff
DONE = 1 and CAUSE = NONE; and, as the six values of R28 need, CAUSE = NONE while DONE = 0. -/
abbrev StatusLegal (s : State) : Prop :=
  (s.phase = .busy → s.done = false ∧ s.ok = false ∧ s.cause = .none)
    ∧ (s.ok = true ↔ s.done = true ∧ s.cause = .none)
    ∧ (s.done = false → s.cause = .none)

/-- The six bytes STATUS can read (10_state.md R28). -/
def statusBytes : List Byte := [0x00, 0x01, 0x06, 0x12, 0x22, 0x32]

/-- L_IN has a legal value (00_scope.md R7). -/
abbrev CapacityLegal (s : State) : Prop := lInLegal s.lIn = true

/-- The result registers: OUT_BUF has 18 bytes, OUT_LEN is 0..18 (10_state.md R30), every byte at and above OUT_LEN is 0
(R34), PID_OUT[63:48] = 0 (R32), and at most one of the two kinds of result is present (40_host_interface.md R109,
R110). -/
abbrev ResultsLegal (s : State) : Prop :=
  s.outBuf.length = Config.outBufSize ∧ s.outLen.toNat ≤ Config.outBufSize
    ∧ (∀ b ∈ s.outBuf.drop s.outLen.toNat, b = 0)
    ∧ s.pidOut.extractLsb' 48 16 = 0
    ∧ (s.pidOut = 0 ∨ s.outLen = 0)

/-- An accepted string command has its whole operand in IN_BUF (40_host_interface.md R106, R112). -/
abbrev OperandLegal (s : State) : Prop :=
  s.phase = .busy → readsString (instrOfOp s.lop) = true → s.inLen.toNat ≤ s.lIn

/-- A command that ended without success left DOC's sentinels, and nothing else, in the result registers
(60_exceptions.md R203; 40_host_interface.md R107). -/
abbrev SentinelLegal (s : State) : Prop :=
  s.done = true → s.ok = false →
    s.pidOut = 0 ∧ s.outLen = 0 ∧ s.outBuf = List.replicate Config.outBufSize 0

/-- A host program has ended: its last transaction has been performed and PHASE = IDLE (40_host_interface.md R113). -/
abbrev ProgramEnded (s : State) : Prop := s.host = [] ∧ s.phase = .idle

end Sys2Proof.Machine
end

