-- ==== Sys2Proof/Certificates/Slice0/Obligations.lean ====
section
/-! DEFINITION. The statements about the model, from the spec's rules. A statement whose docstring says "derived" rests on
an inference the spec marks as its own, or on a choice of the model named by its log entry. -/

open Sys2Proof Sys2Proof.Machine

/-! ### Encoding -/

/-- Decoding of a CMD byte (30_encoding.md R72): `c & 0xFC == 0` decodes to the command at OP = `c & 3`, any other byte is
reserved. -/
def Obligations.CmdByteDecodesByOpOrIsReserved : Prop :=
  ∀ c : Byte,
    (c &&& 0xFC = 0 →
      (c &&& 0x03 = 0 → decodeByte c = .ok .f2id) ∧ (c &&& 0x03 = 1 → decodeByte c = .ok .id2f)
        ∧ (c &&& 0x03 = 2 → decodeByte c = .ok .id2c) ∧ (c &&& 0x03 = 3 → decodeByte c = .ok .c2id))
      ∧ (c &&& 0xFC ≠ 0 → decodeByte c = .error (.reservedCommand c))

/-- The CMD bytes written out from 30_encoding.md R70 and R71 (`000000oo`) decode to the commands they stand for, and the
first reserved byte and the last are refused by name. -/
def Obligations.WordsOfTheOpcodeMapDecode : Prop :=
  decode [0b00000000#8] = .ok (.f2id, []) ∧ decode [0b00000001#8] = .ok (.id2f, [])
    ∧ decode [0b00000010#8] = .ok (.id2c, []) ∧ decode [0b00000011#8] = .ok (.c2id, [])
    ∧ decode [0b00000100#8] = .error (.reservedCommand 0x04) ∧ decode [0b11111111#8] = .error (.reservedCommand 0xFF)

/-- Decode of encode is the command, and no byte but its encoding decodes to a command. -/
def Obligations.DecodeAndEncodeAgree : Prop :=
  (∀ (i : Instr) (rest : List Byte), i.wellFormed = true → decode (encode i :: rest) = .ok (i, rest))
    ∧ ∀ (c : Byte) (i : Instr), decodeByte c = .ok i → c = encode i

/-! ### The tables and the packed identifier -/

/-- ALPHA in closed form (30_encoding.md R80). -/
def Obligations.AlphabetInClosedForm : Prop :=
  alphabet.length = 64 ∧ ∀ v : BitVec 6,
    (v.toNat ≤ 9 → alpha v = BitVec.ofNat 8 (0x30 + v.toNat))
      ∧ (10 ≤ v.toNat ∧ v.toNat ≤ 35 → alpha v = BitVec.ofNat 8 (0x41 + (v.toNat - 10)))
      ∧ (36 ≤ v.toNat ∧ v.toNat ≤ 61 → alpha v = BitVec.ofNat 8 (0x61 + (v.toNat - 36)))
      ∧ (v = 62 → alpha v = 0x2D) ∧ (v = 63 → alpha v = 0x5F)

/-- ALPHA and INV are inverse, and INV is defined on exactly the bytes of the table: derived, as 30_encoding.md R81 says of
itself ("derived: from rule R80"). -/
def Obligations.AlphabetAndInverseAgree : Prop :=
  (∀ v : BitVec 6, alphaInv (alpha v) = some v) ∧ (∀ (b : Byte) (v : BitVec 6), alphaInv b = some v → alpha v = b)
    ∧ ∀ b : Byte, alphaInv b = none ↔ b ∉ alphabet

/-- Pack places the fields at 47:44, 43:12 and 11:0 with 63:48 zero, and unpacking gives them back: derived, as
30_encoding.md R77 says of itself ("derived: from rule R75 and rule R76"). -/
def Obligations.UnpackOfPack : Prop :=
  ∀ (cls : BitVec 4) (ts : BitVec 32) (seq : BitVec 12),
    pack cls ts seq = 0#16 ++ cls ++ ts ++ seq ∧ pidClass (pack cls ts seq) = cls
      ∧ pidTimestamp (pack cls ts seq) = ts ∧ pidSequence (pack cls ts seq) = seq

/-- The extraction formulas of DOC: `(pid >> 44) & 0xF`, `(pid >> 12) & 0xFFFFFFFF`, `pid & 0xFFF`; bits 63:48 enter none
of them (30_encoding.md R77). -/
def Obligations.FieldsByShiftAndMask : Prop :=
  ∀ pid : Word,
    (pidClass pid).setWidth 64 = (pid >>> 44) &&& 0xF ∧ (pidTimestamp pid).setWidth 64 = (pid >>> 12) &&& 0xFFFFFFFF
      ∧ (pidSequence pid).setWidth 64 = pid &&& 0xFFF
      ∧ pidClass pid = pidClass (low48 pid) ∧ pidTimestamp pid = pidTimestamp (low48 pid)
      ∧ pidSequence pid = pidSequence (low48 pid)

/-- Dec and HexU are the shortest numerals (00_scope.md R13): made of digits (HexU of uppercase ones), of the right value,
no longer than any other numeral of that value, "0" for zero and with no leading '0' otherwise. -/
def Obligations.NumeralsAreShortest : Prop :=
  ∀ n : Nat,
    ((∀ b ∈ decNumeral n, isDecDigit b = true) ∧ decValue (decNumeral n) = n
      ∧ (∀ t : List Byte, t ≠ [] → (∀ b ∈ t, isDecDigit b = true) → decValue t = n →
          (decNumeral n).length ≤ t.length))
    ∧ ((∀ b ∈ hexNumeral n, isHexDigit b = true ∧ b.toNat ≤ 0x46) ∧ hexValue (hexNumeral n) = n
      ∧ (∀ t : List Byte, t ≠ [] → (∀ b ∈ t, isHexDigit b = true) → hexValue t = n →
          (hexNumeral n).length ≤ t.length))
    ∧ (n = 0 → decNumeral n = [0x30] ∧ hexNumeral n = [0x30])
    ∧ (n ≠ 0 → (decNumeral n).head? ≠ some 0x30 ∧ (hexNumeral n).head? ≠ some 0x30)

/-! ### The filename codec -/

/-- SplitN (41_filename_codec.md R131): the segments joined by dots are the string, there are as many as dots and one more
but at most 4, and the first three hold no dot. -/
def Obligations.SplitAtTheFirstThreeDots : Prop :=
  ∀ s : List Byte,
    [dot].intercalate (splitN s) = s ∧ (splitN s).length = min (s.count dot) 3 + 1
      ∧ ∀ g ∈ (splitN s).take 3, dot ∉ g

/-- F2ID succeeds exactly on the language of the grammar (30_encoding.md R83). -/
def Obligations.FilenameLanguageIsAccepted : Prop :=
  ∀ s : List Byte, (f2id s).2 = true ↔ IsFilename s

/-- F2ID on a filename (41_filename_codec.md R137): whatever state holds the filename as its operand, the command ends with
PID_OUT = `(class << 44) | (timestamp << 12) | sequence`, OK and no cause; every other register is as the write-back says
or unchanged. A missing or empty sequence is 0 (R136). -/
def Obligations.F2idPacksTheFilename : Prop :=
  ∀ (s : State) (cls : BitVec 4) (c : Byte) (ts tail q : List Byte),
    (cls = 0 ∧ c = letterM ∨ cls = 1 ∧ c = letterG) → ts ≠ [] → (∀ b ∈ ts, isDecDigit b = true) →
    1 ≤ decValue ts → decValue ts ≤ 0xFFFFFFFF → (∀ b ∈ q, isHexDigit b = true) → hexValue q ≤ 0xFFF →
    (tail = [dot] ++ q ∨ tail = [] ∧ q = []) → s.inLen.toNat ≤ s.lIn →
    s.stringOperand = [c, dot] ++ ts ++ [dot, letterA] ++ tail →
    exec .f2id s = .next
      { s with
        pidOut := (cls.setWidth 64 <<< 44) ||| (BitVec.ofNat 64 (decValue ts) <<< 12) ||| BitVec.ofNat 64 (hexValue q)
        outLen := 0, outBuf := List.replicate 18 0, ok := true, cause := .none, phase := .idle, done := true }

/-- F2ID on anything else (60_exceptions.md R201, 41_filename_codec.md R140): the command ends with the sentinel 0, OK = 0
and CAUSE = MALFORMED. -/
def Obligations.F2idRefusesWhatIsNoFilename : Prop :=
  ∀ s : State, s.inLen.toNat ≤ s.lIn → ¬ IsFilename s.stringOperand →
    exec .f2id s = .next
      { s with
        pidOut := 0, outLen := 0, outBuf := List.replicate 18 0, ok := false, cause := .malformed, phase := .idle
        done := true }

/-- Segment count (41_filename_codec.md R132): fewer than two dots fail; exactly two are enough, and the sequence is then
0. -/
def Obligations.ThreeSegmentsAreEnough : Prop :=
  (∀ s : List Byte, s.count dot < 2 → f2id s = (0, false))
    ∧ ∀ (cls : BitVec 4) (c : Byte) (ts : List Byte), (cls = 0 ∧ c = letterM ∨ cls = 1 ∧ c = letterG) →
        ts ≠ [] → (∀ b ∈ ts, isDecDigit b = true) → 1 ≤ decValue ts → decValue ts ≤ 0xFFFFFFFF →
        f2id ([c, dot] ++ ts ++ [dot, letterA]) = (pack cls (BitVec.ofNat 32 (decValue ts)) 0, true)

/-- Leading zeros (41_filename_codec.md R141): any number of them in the timestamp and the sequence changes nothing, with or
without a fourth segment, and a timestamp of zeros only fails. -/
def Obligations.LeadingZerosDoNotCount : Prop :=
  (∀ (c : Byte) (ts q : List Byte) (m n : Nat), ts ≠ [] → (∀ b ∈ ts, isDecDigit b = true) →
      (∀ b ∈ q, isHexDigit b = true) →
      f2id ([c, dot] ++ (List.replicate m 0x30 ++ ts) ++ [dot, letterA, dot] ++ (List.replicate n 0x30 ++ q))
          = f2id ([c, dot] ++ ts ++ [dot, letterA, dot] ++ q)
        ∧ f2id ([c, dot] ++ (List.replicate m 0x30 ++ ts) ++ [dot, letterA])
          = f2id ([c, dot] ++ ts ++ [dot, letterA]))
    ∧ ∀ (c : Byte) (m : Nat) (tail : List Byte), f2id ([c, dot] ++ List.replicate m 0x30 ++ [dot] ++ tail) = (0, false)

/-- The range of F2ID's result: derived, as 41_filename_codec.md R139 says of itself ("These hold [derived: from rule R130
and rule R137]"). A success is a valid PID from 0x1000 to 0x1FFFFFFFFFFF, a failure is 0. -/
def Obligations.F2idResultIsValidOrZero : Prop :=
  ∀ s : List Byte,
    ((f2id s).2 = true → validPid (f2id s).1 = true ∧ (f2id s).1.extractLsb' 45 19 = 0
      ∧ 0x1000 ≤ (f2id s).1.toNat ∧ (f2id s).1.toNat ≤ 0x1FFFFFFFFFFF)
      ∧ ((f2id s).2 = false → (f2id s).1 = 0)

/-- The class is ID2F's only failure (41_filename_codec.md R146): 2..15 give the empty string; 0 and 1 give a string that
starts with "M" and "G". -/
def Obligations.Id2fFailsOnTheClassAlone : Prop :=
  ∀ p : Word,
    (2 ≤ (pidClass p).toNat ↔ (id2f p).2 = false) ∧ (2 ≤ (pidClass p).toNat → (id2f p).1 = [])
      ∧ (pidClass p = 0 → (id2f p).1.head? = some letterM) ∧ (pidClass p = 1 → (id2f p).1.head? = some letterG)

/-- ID2F on a PID of class 0 or 1 (41_filename_codec.md R147): from every state the command ends with the rendering in
OUT_BUF, 7 to 18 bytes long, zeros after it, OK and no cause; every other register is unchanged. -/
def Obligations.Id2fRendersTheFilename : Prop :=
  ∀ (s : State) (c : Byte) (t : List Byte),
    (pidClass s.pidIn = 0 ∧ c = letterM ∨ pidClass s.pidIn = 1 ∧ c = letterG) →
    t = [c, dot] ++ decNumeral (pidTimestamp s.pidIn).toNat ++ [dot, letterA, dot]
          ++ hexNumeral (pidSequence s.pidIn).toNat →
    7 ≤ t.length ∧ t.length ≤ 18
      ∧ exec .id2f s = .next
          { s with
            pidOut := 0, outLen := BitVec.ofNat 8 t.length, outBuf := t ++ List.replicate (18 - t.length) 0
            ok := true, cause := .none, phase := .idle, done := true }

/-- ID2F on a PID of class 2..15 (41_filename_codec.md R150): the command ends with the empty string and MALFORMED. -/
def Obligations.Id2fRefusesOtherClasses : Prop :=
  ∀ s : State, 2 ≤ (pidClass s.pidIn).toNat →
    exec .id2f s = .next
      { s with
        pidOut := 0, outLen := 0, outBuf := List.replicate 18 0, ok := false, cause := .malformed, phase := .idle
        done := true }

/-- Parse after format: derived, as 41_filename_codec.md R151 says of itself ("derived: from rule R130, rule R145 and rule
R147"). -/
def Obligations.ParseAfterFormat : Prop :=
  ∀ p : Word,
    ((pidClass p).toNat ≤ 1 →
      (pidTimestamp p ≠ 0 → f2id (id2f p).1 = (low48 p, true))
        ∧ (pidTimestamp p = 0 → f2id (id2f p).1 = (0, false)))
      ∧ (2 ≤ (pidClass p).toNat → id2f p = ([], false) ∧ f2id (id2f p).1 = (0, false))

/-- Format after parse: derived, as 41_filename_codec.md R152 says of itself ("derived: from rule R130, rule R145 and rule
R147"). The round trip is the identity exactly on canonical strings. -/
def Obligations.FormatAfterParse : Prop :=
  ∀ (s : List Byte) (p : Word), f2id s = (p, true) →
    id2f p = (canonFilename s, true) ∧ ((id2f (f2id s).1).1 = s ↔ canonFilename s = s)

/-- The canonical strings are the ID2F outputs with a non-zero timestamp: derived, as 41_filename_codec.md R153 says of
itself ("derived: from rule R147 and rule R152"). -/
def Obligations.CanonicalFilenamesAreTheRenderings : Prop :=
  ∀ s : List Byte,
    ((f2id s).2 = true ∧ canonFilename s = s)
      ↔ ∃ p : Word, (pidClass p).toNat ≤ 1 ∧ pidTimestamp p ≠ 0 ∧ s = (id2f p).1

/-! ### The compact codec -/

/-- ID2C (42_compact_codec.md R170, R172, R173): from every state the command ends with the 8 symbols of bits 47:0, most
significant first, in OUT_BUF; every other register is as the write-back says or unchanged. The closed form of the symbols
is derived, as R170 says of itself ("derived: from this rule and 30_encoding.md rule R82"). -/
def Obligations.Id2cWritesTheEightSymbols : Prop :=
  ∀ s : State,
    exec .id2c s = .next
      { s with
        pidOut := 0, outLen := 8
        outBuf := [alpha (s.pidIn.extractLsb' 42 6), alpha (s.pidIn.extractLsb' 36 6),
            alpha (s.pidIn.extractLsb' 30 6), alpha (s.pidIn.extractLsb' 24 6), alpha (s.pidIn.extractLsb' 18 6),
            alpha (s.pidIn.extractLsb' 12 6), alpha (s.pidIn.extractLsb' 6 6), alpha (s.pidIn.extractLsb' 0 6)]
          ++ List.replicate 10 0
        ok := true, cause := .none, phase := .idle, done := true }

/-- ID2C's code has always exactly 8 symbols (42_compact_codec.md R172), a value of at most k symbols being left-padded with
'0', and ID2C never fails (R173): from every state the command ends with OK = 1 and CAUSE = NONE. -/
def Obligations.Id2cIsPaddedToEightAndNeverFails : Prop :=
  ∀ p : Word,
    (id2c p).1.length = 8 ∧ (id2c p).2 = true
      ∧ (∀ k : Nat, k ≤ 8 → p.toNat < 64 ^ k → (id2c p).1.take (8 - k) = List.replicate (8 - k) 0x30)
      ∧ ∀ s : State, ∃ t, exec .id2c s = .next t ∧ t.ok = true ∧ t.cause = .none

/-- C2ID on a code: whatever state holds 8 alphabet bytes as its operand, the command ends with their value
`sum of INV(c[i]) * 64^(7-i)`, below 2^48, in PID_OUT, OK even where it is 0. Derived, as 42_compact_codec.md R178 says of
itself ("derived: from rule R175"). -/
def Obligations.C2idReadsTheValue : Prop :=
  ∀ s : State, s.inLen.toNat ≤ s.lIn → s.stringOperand.length = 8 → (∀ b ∈ s.stringOperand, alphaInv b ≠ none) →
    codeValue s.stringOperand < 2 ^ 48
      ∧ exec .c2id s = .next
          { s with
            pidOut := BitVec.ofNat 64 (codeValue s.stringOperand), outLen := 0, outBuf := List.replicate 18 0
            ok := true, cause := .none, phase := .idle, done := true }

/-- C2ID on anything else (42_compact_codec.md R176, R177): a length other than 8, or a byte outside the alphabet at any
position, gives (0, 0), and ends the command with the sentinel 0, OK = 0 and CAUSE = MALFORMED. -/
def Obligations.C2idRefusesWhatIsNoCode : Prop :=
  (∀ c : List Byte, (c.length ≠ 8 ∨ ∃ b ∈ c, alphaInv b = none) → c2id c = (0, false))
    ∧ ∀ s : State, s.inLen.toNat ≤ s.lIn →
        (s.stringOperand.length ≠ 8 ∨ ∃ b ∈ s.stringOperand, alphaInv b = none) →
        exec .c2id s = .next
          { s with
            pidOut := 0, outLen := 0, outBuf := List.replicate 18 0, ok := false, cause := .malformed, phase := .idle
            done := true }

/-- Round trip from a PID: derived, as 42_compact_codec.md R182 says of itself ("derived: from rule R170, rule R175"). -/
def Obligations.DecodeOfTheCodeIsThePid : Prop :=
  ∀ p : Word, c2id (id2c p).1 = (low48 p, true)

/-- Round trip from a code: derived, as 42_compact_codec.md R182 says of itself ("derived: from rule R170, rule R175"). -/
def Obligations.CodeOfTheDecodedPidIsTheCode : Prop :=
  ∀ c : List Byte, c.length = 8 → (∀ b ∈ c, alphaInv b ≠ none) → (c2id c).2 = true ∧ id2c (c2id c).1 = (c, true)

/-- The first symbol of a valid PID's code is '0'..'3' for class 0 and '4'..'7' for class 1: derived, as
42_compact_codec.md R183 says of itself ("derived: from rule R170"). -/
def Obligations.FirstSymbolGivesTheClass : Prop :=
  ∀ p : Word, validPid p = true →
    (pidClass p = 0 → ∃ b, (id2c p).1.head? = some b ∧ 0x30 ≤ b.toNat ∧ b.toNat ≤ 0x33)
      ∧ (pidClass p = 1 → ∃ b, (id2c p).1.head? = some b ∧ 0x34 ≤ b.toNat ∧ b.toNat ≤ 0x37)

/-- Bits 63:48 of a PID operand never matter: derived, as 41_filename_codec.md R145 ("derived: from this rule") and
42_compact_codec.md R171 ("derived: from rule R170") say of themselves. -/
def Obligations.HighBitsOfThePidAreIgnored : Prop :=
  ∀ p : Word, id2f p = id2f (low48 p) ∧ id2c p = id2c (low48 p)

/-! ### Write-back and completion -/

/-- WBWord (40_host_interface.md R109): from every state, F2ID and C2ID end with the function's word in PID_OUT, the string
results zeroed, OK and CAUSE by its success bit, PHASE = IDLE and DONE = 1; nothing else changes; and the word is 0 whenever
the success bit is 0. Derived: in a state with IN_LEN > L_IN, where 30_encoding.md R74 gives no operand and
40_host_interface.md R106 lets nothing run, the operand of the L_IN bytes there are is the model's own choice (log entry
7). -/
def Obligations.WordCommandsWriteBack : Prop :=
  ∀ s : State,
    ((f2id s.stringOperand).2 = false → (f2id s.stringOperand).1 = 0)
      ∧ ((c2id s.stringOperand).2 = false → (c2id s.stringOperand).1 = 0)
      ∧ exec .f2id s = .next
        { s with
          pidOut := (f2id s.stringOperand).1, outLen := 0, outBuf := List.replicate 18 0
          ok := (f2id s.stringOperand).2, cause := if (f2id s.stringOperand).2 = true then .none else .malformed
          phase := .idle, done := true }
      ∧ exec .c2id s = .next
        { s with
          pidOut := (c2id s.stringOperand).1, outLen := 0, outBuf := List.replicate 18 0
          ok := (c2id s.stringOperand).2, cause := if (c2id s.stringOperand).2 = true then .none else .malformed
          phase := .idle, done := true }

/-- WBStr (40_host_interface.md R110): from every state, ID2F and ID2C end with the function's string, at most 18 bytes,
in OUT_BUF, its length in OUT_LEN, 0 in the bytes after it and in PID_OUT, OK and CAUSE by its success bit, PHASE = IDLE and
DONE = 1; nothing else changes. -/
def Obligations.StringCommandsWriteBack : Prop :=
  ∀ (s : State) (i : Instr) (r : List Byte × Bool), (i = .id2f ∧ r = id2f s.pidIn ∨ i = .id2c ∧ r = id2c s.pidIn) →
    r.1.length ≤ 18 ∧ (r.2 = false → r.1 = [])
      ∧ exec i s = .next
          { s with
            pidOut := 0, outLen := BitVec.ofNat 8 r.1.length, outBuf := r.1 ++ List.replicate (18 - r.1.length) 0
            ok := r.2, cause := if r.2 = true then .none else .malformed, phase := .idle, done := true }

/-- Complete (40_host_interface.md R108), and a step runs the decoded command: on the engine's turn while BUSY, the step is
exec of the command LOP names, the schedule moved on; the command ends IDLE with DONE = 1 and STATUS 0x06 or 0x12; while
IDLE the engine's turn changes nothing but the schedule. Derived: whose turn it is and the schedule are the model's own form
of 40_host_interface.md section 1 (log entry 1), and so is the turn that passes while IDLE (log entry 2). -/
def Obligations.EngineStepRunsTheAcceptedCommand : Prop :=
  ∀ s : State, s.nextAgent = .engine →
    (s.phase = .busy →
      (s.lop = 0 → step s = exec .f2id { s with schedule := s.schedule.tail })
        ∧ (s.lop = 1 → step s = exec .id2f { s with schedule := s.schedule.tail })
        ∧ (s.lop = 2 → step s = exec .id2c { s with schedule := s.schedule.tail })
        ∧ (s.lop = 3 → step s = exec .c2id { s with schedule := s.schedule.tail })
        ∧ ∃ t, step s = .next t ∧ t.phase = .idle ∧ t.done = true ∧ (t.statusByte = 0x06 ∨ t.statusByte = 0x12))
      ∧ (s.phase = .idle → step s = .next { s with schedule := s.schedule.tail })

/-- A CMD byte that decodes, placed by `withFetchWord`, is what the next step runs. Derived: the placing is the model's own
(log entry 6). -/
def Obligations.PlacedCommandIsRunByTheNextStep : Prop :=
  ∀ (s : State) (w : Nat) (i : Instr), decodeTableWord 8 w = some i →
    step (s.withFetchWord 8 w) = exec i { s.accept (opOfInstr i) with schedule := s.schedule }

/-- The host's turn: the step is the host's next operation, the host's list and the schedule moved on; a host with nothing
to issue changes nothing. Derived: the list and the schedule are the model's own form of 40_host_interface.md section 1 (log
entries 1 and 2). -/
def Obligations.HostStepIssuesTheNextOperation : Prop :=
  ∀ s : State, s.nextAgent = .host →
    (∀ (op : HostOp) (rest : List HostOp), s.host = op :: rest →
      step s = .next ({ s with schedule := s.schedule.tail, host := rest }.hostOp op))
      ∧ (s.host = [] → step s = .next { s with schedule := s.schedule.tail })

/-! ### Host transactions -/

/-- Writes while BUSY are dropped (40_host_interface.md R103): every register number, CMD included, no effect at all. -/
def Obligations.WritesWhileBusyAreDropped : Prop :=
  ∀ (s : State) (r : RegNum) (d : Word), s.phase = .busy → s.hostOp (.write r d) = s

/-- HostWrite (40_host_interface.md R101), the whole chain of cases: the low bits of the data word go to the register
written, CMD issues a command, every other number is ignored, and nothing else changes. -/
def Obligations.HostWriteEffect : Prop :=
  ∀ (s : State) (r : RegNum) (d : Word),
    s.hostOp (.write r d)
      = if s.phase = .busy then s
        else if r = 0x00 then s.cmdWrite (d.extractLsb' 0 8)
        else if r = 0x02 then { s with inLen := d.extractLsb' 0 8 }
        else if r = 0x04 then { s with pidIn := d }
        else if 0x40 ≤ r.toNat ∧ r.toNat < 0x40 + s.lIn then
          { s with inBuf := s.inBuf.set (r.toNat - 0x40) (d.extractLsb' 0 8) }
        else s

/-- CmdWrite (40_host_interface.md R104) with its checks in order (R105 before R106) and the effect of a rejection (R107):
what each leaves in every register. -/
def Obligations.CmdWriteRejectsOrAccepts : Prop :=
  ∀ (s : State) (c : Byte),
    s.cmdWrite c
      = if c.extractLsb' 2 6 ≠ 0 then
          { s with
            pidOut := 0, outLen := 0, outBuf := List.replicate 18 0, done := true, ok := false, cause := .badCmd }
        else if (c.extractLsb' 0 2 = 0 ∨ c.extractLsb' 0 2 = 3) ∧ s.lIn < s.inLen.toNat then
          { s with
            pidOut := 0, outLen := 0, outBuf := List.replicate 18 0, done := true, ok := false, cause := .badLen }
        else
          { s with phase := .busy, lop := c.extractLsb' 0 2, done := false, ok := false, cause := .none }

/-- HostRead of a stored value: while IDLE, or of a register that is no result register, a read returns the register
zero-extended (CMD and reserved numbers: 0) and changes nothing but the host's record of it. The record is the model's own
form of "-> v" (log entry 3); derived from 40_host_interface.md R102. -/
def Obligations.HostReadReturnsTheStoredValue : Prop :=
  ∀ (s : State) (r : RegNum), (s.phase = .idle ∨ (r ≠ 0x03 ∧ r ≠ 0x05 ∧ ¬ (0x80 ≤ r.toNat ∧ r.toNat ≤ 0x91))) →
    CapacityLegal s →
    s.hostOp (.read r)
      = { s with
          reads := s.reads ++ [⟨r,
            if r = 0x00 then 0
            else if r = 0x01 then s.statusByte.setWidth 64
            else if r = 0x02 then s.inLen.setWidth 64
            else if r = 0x03 then s.outLen.setWidth 64
            else if r = 0x04 then s.pidIn
            else if r = 0x05 then s.pidOut
            else if r = 0x06 then BitVec.ofNat 64 s.lIn
            else if 0x40 ≤ r.toNat ∧ r.toNat < 0x40 + s.lIn then (s.inBuf.getD (r.toNat - 0x40) 0).setWidth 64
            else if 0x80 ≤ r.toNat ∧ r.toNat ≤ 0x91 then (s.outBuf.getD (r.toNat - 0x80) 0).setWidth 64
            else 0⟩] }

/-- A read of a result register while BUSY returns a free value, a new one for each read, and changes no register. Derived:
the free value and its counter are the model's form of 10_state.md R40's "unspecified value" (log entry 4); the statement
holds for every value of the counter. -/
def Obligations.ResultReadWhileBusyIsUnspecified : Prop :=
  ∀ (s : State) (r : RegNum), s.phase = .busy → CapacityLegal s →
    (r = 0x05 → s.hostOp (.read r)
        = { s with reads := s.reads ++ [⟨r, Config.draw64 s.draws⟩], draws := s.draws + 1 })
      ∧ (r = 0x03 ∨ 0x80 ≤ r.toNat ∧ r.toNat ≤ 0x91 → s.hostOp (.read r)
        = { s with reads := s.reads ++ [⟨r, (Config.draw8 s.draws).setWidth 64⟩], draws := s.draws + 1 })

/-- Read after write: while IDLE, an operand register reads the value just written to it, and every other register number
reads as before. Derived from 20_memory.md R61 (a) and (c). -/
def Obligations.OperandWriteIsReadBack : Prop :=
  ∀ (s : State) (r r' : RegNum) (d : Word), s.phase = .idle → CapacityLegal s → r ≠ 0x00 →
    (r = 0x02 ∨ 0x40 ≤ r.toNat ∧ r.toNat < 0x40 + s.lIn →
        (s.hostOp (.write r d)).readValue r = (d.extractLsb' 0 8).setWidth 64)
      ∧ (r = 0x04 → (s.hostOp (.write r d)).readValue r = d)
      ∧ (r' ≠ r → (s.hostOp (.write r d)).readValue r' = s.readValue r')

/-- Reserved register numbers (10_state.md R35): a read returns 0, a write is ignored, no state changes but the host's
record of what it read. Derived: the record is the model's own form of "-> v" (log entry 3); in the spec a read changes no
state (40_host_interface.md R102). -/
def Obligations.ReservedNumbersReadZeroAndIgnoreWrites : Prop :=
  ∀ (s : State) (r : RegNum) (d : Word), CapacityLegal s →
    (0x07 ≤ r.toNat ∧ r.toNat ≤ 0x3F ∨ 0x40 + s.lIn ≤ r.toNat ∧ r.toNat ≤ 0x7F ∨ 0x92 ≤ r.toNat) →
    s.hostOp (.read r) = { s with reads := s.reads ++ [⟨r, 0⟩] } ∧ s.hostOp (.write r d) = s

/-- The STATUS byte (10_state.md R26): BUSY at bit 0, DONE at 1, OK at 2, CAUSE at 5:4, bits 3 and 7:6 zero; a write of
STATUS is ignored. -/
def Obligations.StatusByteFields : Prop :=
  ∀ (s : State) (d : Word),
    s.statusByte.getLsbD 0 = decide (s.phase = .busy) ∧ s.statusByte.getLsbD 1 = s.done
      ∧ s.statusByte.getLsbD 2 = s.ok ∧ s.statusByte.getLsbD 3 = false
      ∧ s.statusByte.extractLsb' 4 2 = causeCode s.cause ∧ s.statusByte.extractLsb' 6 2 = 0
      ∧ causeCode .none = 0 ∧ causeCode .malformed = 1 ∧ causeCode .badCmd = 2 ∧ causeCode .badLen = 3
      ∧ s.hostOp (.write 0x01 d) = s

/-- Reset (70_reset_and_hazards.md R220), at any time, BUSY included (R221): every register at its reset value, L_IN as
before, no Complete step left to take. Derived: the model's own fields are no registers, and that Reset keeps them is its
choice (the host's list and the schedule: log entry 1; the record of reads: log entry 3; the counter of free values: log
entry 4), as is the engine's turn that passes while IDLE (log entry 2). -/
def Obligations.ResetSetsEveryRegister : Prop :=
  ∀ s : State,
    s.hostOp .reset
        = { s with
            phase := .idle, lop := 0, done := false, ok := false, cause := .none, inLen := 0, outLen := 0, pidIn := 0
            pidOut := 0, inBuf := List.replicate s.lIn 0, outBuf := List.replicate 18 0 }
      ∧ (s.hostOp .reset).lIn = s.lIn ∧ (s.hostOp .reset).statusByte = 0x00
      ∧ (s.hostOp .reset).engineTurn = .next (s.hostOp .reset)

/-- WAIT (30_encoding.md R87): it reads STATUS, and is over exactly when DONE = 1; otherwise the host reads again. Derived:
WAIT as an operation in the host's list is the model's own (log entry 9). -/
def Obligations.WaitEndsExactlyOnDone : Prop :=
  ∀ s : State,
    s.hostOp .wait
      = { s with
          reads := s.reads ++ [⟨0x01, s.statusByte.setWidth 64⟩]
          host := if s.done = true then s.host else .wait :: s.host }

/-- GETS (30_encoding.md R87), while IDLE: it reads OUT_LEN = n, and the host goes on with the reads of OUT_BUF[0] to
OUT_BUF[n-1]. Derived: GETS as an operation in the host's list is the model's own (log entry 9). -/
def Obligations.GetsReadsTheOutputString : Prop :=
  ∀ s : State, s.phase = .idle → ResultsLegal s →
    s.hostOp .gets
      = { s with
          reads := s.reads ++ [⟨0x03, s.outLen.setWidth 64⟩]
          host := (List.range s.outLen.toNat).map (fun i => HostOp.read (BitVec.ofNat 8 (0x80 + i))) ++ s.host }

/-- PUTS (30_encoding.md R87): for a string that fits, issued while IDLE with no schedule against it, the host's n + 1
writes leave the string at the start of IN_BUF and n in IN_LEN, and change nothing else. Derived: the host's list is the
model's own (log entry 1). -/
def Obligations.PutsPresentsTheString : Prop :=
  ∀ (s : State) (t : List Byte) (rest : List HostOp), s.phase = .idle → s.schedule = [] →
    s.host = putsOps t ++ rest → t.length ≤ s.lIn → CapacityLegal s →
    core.run (t.length + 1) s = .next
        { s with host := rest, inBuf := t ++ s.inBuf.drop t.length, inLen := BitVec.ofNat 8 t.length }
      ∧ State.stringOperand { s with
          host := rest, inBuf := t ++ s.inBuf.drop t.length, inLen := BitVec.ofNat 8 t.length } = t

/-! ### Whole-machine rules -/

/-- Results hold (20_memory.md R61 (b)): while IDLE, no step changes a result register or STATUS unless it is the host's
write of CMD or its Reset. -/
def Obligations.ResultsHoldUntilTheNextCommand : Prop :=
  ∀ s t : State, s.phase = .idle →
    (∀ (op : HostOp) (rest : List HostOp), s.host = op :: rest → op ≠ .reset ∧ ∀ d, op ≠ .write 0x00 d) →
    step s = .next t →
    t.phase = .idle ∧ t.pidOut = s.pidOut ∧ t.outLen = s.outLen ∧ t.outBuf = s.outBuf ∧ t.done = s.done ∧ t.ok = s.ok
      ∧ t.cause = s.cause ∧ t.lop = s.lop

/-- Operands are stable while a command is in progress: derived, as 40_host_interface.md R112 says of itself ("derived: from
rule R103, rule R104 and rule R108"). A step that leaves the block BUSY changes no register at all. -/
def Obligations.OperandsAreStableWhileBusy : Prop :=
  ∀ s t : State, s.phase = .busy → step s = .next t → t.phase = .busy →
    t = { s with host := t.host, schedule := t.schedule, reads := t.reads, draws := t.draws }

/-- Every accepted command ends, and with the function layer's value on its operands, under every schedule and whatever the
host does short of Reset: derived, 40_host_interface.md R114 ("derived: from rule R108"), the bound being the model's form of
the fairness of R111 (log entry 1). -/
def Obligations.EveryAcceptedCommandEndsWithItsResults : Prop :=
  ∀ s : State, s.phase = .busy → HostOp.reset ∉ s.host →
    ∃ (k : Nat) (t u : State), k ≤ s.schedule.length + 1 ∧ core.run k s = .next t
      ∧ exec (instrOfOp s.lop) s = .next u ∧ t.phase = .idle ∧ t.done = true ∧ t.ok = u.ok ∧ t.cause = u.cause
      ∧ t.pidOut = u.pidOut ∧ t.outLen = u.outLen ∧ t.outBuf = u.outBuf
      ∧ t.inLen = s.inLen ∧ t.pidIn = s.pidIn ∧ t.inBuf = s.inBuf

/-- No step stops: from every state a step answers a next state ("No behaviour of this spec is `stuck`",
93_implementation_defined.md, Part 1; 60_exceptions.md R205). -/
def Obligations.NoStepStops : Prop :=
  ∀ s : State, ∃ t, step s = .next t

/-- A host program that has ended stays ended: with nothing to issue, no schedule and PHASE = IDLE, a step changes nothing
(60_exceptions.md R212: "When IDLE the block does nothing until a CMD write"; 40_host_interface.md R113). Derived: log entry
2. -/
def Obligations.EndedProgramIsQuiescent : Prop :=
  ∀ s : State, ProgramEnded s → s.schedule = [] → step s = .next s

/-- PARAM is a constant (10_state.md R33): no step changes L_IN, Reset included, every read of PARAM, BUSY or IDLE, returns
it, a value from 18 to 64, and a write of PARAM is ignored. -/
def Obligations.ParamIsConstant : Prop :=
  (∀ s t : State, step s = .next t → t.lIn = s.lIn)
    ∧ (∀ s : State, (s.hostOp .reset).lIn = s.lIn)
    ∧ (∀ s : State, CapacityLegal s → (s.readValue 0x06).toNat = s.lIn ∧ 18 ≤ s.lIn ∧ s.lIn ≤ 64)
    ∧ ∀ (s : State) (d : Word), s.hostOp (.write 0x06 d) = s

/-- STATUS reads one of six bytes in every legal state: derived, as 10_state.md R28 says of itself ("derived: from rule
R27"). -/
def Obligations.StatusReadsOneOfSixBytes : Prop :=
  ∀ s : State, StatusLegal s → s.statusByte ∈ statusBytes

/-- The invariant of STATUS (10_state.md R27 (a), (b)), kept by every step: derived, as R27 says of itself ("derived: from
rule R26"). -/
def Obligations.EveryStepKeepsStatusLegal : Prop :=
  ∀ s t : State, StatusLegal s → step s = .next t → StatusLegal t

/-- The invariant of the result registers (10_state.md R30, R32, R34), kept by every step: derived, as R32 says of itself
("derived: from 41_filename_codec.md rule R139"). -/
def Obligations.EveryStepKeepsResultsLegal : Prop :=
  ∀ s t : State, ResultsLegal s → step s = .next t → ResultsLegal t

/-- The invariant of an accepted command's operand, kept by every step: derived, as 40_host_interface.md R112 says of
itself. It is the premise IN_LEN ≤ L_IN of the statements about string commands. -/
def Obligations.EveryStepKeepsOperandLegal : Prop :=
  ∀ s t : State, OperandLegal s → step s = .next t → OperandLegal t

/-- The invariant of the sentinels (60_exceptions.md R203), kept by every step. Derived. -/
def Obligations.EveryStepKeepsSentinelLegal : Prop :=
  ∀ s t : State, SentinelLegal s → step s = .next t → SentinelLegal t

/-- The reset state meets every invariant, for every legal L_IN. Derived. -/
def Obligations.ResetStateIsLegal : Prop :=
  ∀ n : Nat, lInLegal n = true →
    StatusLegal (State.resetWith n) ∧ CapacityLegal (State.resetWith n) ∧ ResultsLegal (State.resetWith n)
      ∧ OperandLegal (State.resetWith n) ∧ SentinelLegal (State.resetWith n)

/-- What the host reads after reset: STATUS 0x00, PID_OUT 0, OUT_LEN 0, every buffer byte 0, PARAM = L_IN. Derived, as
70_reset_and_hazards.md R222 says of itself ("derived: from rule R220"). -/
def Obligations.ReadsAfterReset : Prop :=
  ∀ n : Nat, lInLegal n = true →
    (State.resetWith n).readValue 0x01 = 0 ∧ (State.resetWith n).readValue 0x05 = 0
      ∧ (State.resetWith n).readValue 0x03 = 0 ∧ (State.resetWith n).readValue 0x06 = BitVec.ofNat 64 n
      ∧ ∀ r : RegNum, 0x40 ≤ r.toNat → (State.resetWith n).readValue r = 0
end

