-- ==== Sys2Proof/Laws/Compact.lean ====
section
/-! SUPPORT. The compact codec: the loops of ID2C and C2ID one symbol at a time, and what C2ID answers. -/

namespace Sys2Proof.Machine

theorem encodeSymbols_succ (k : Nat) (v : Word) (acc : List Byte) :
    encodeSymbols (k + 1) v acc = encodeSymbols k (v / 64#64) (alpha ((v % 64#64).setWidth 6) :: acc) := rfl

theorem encodeSymbols_length (k : Nat) (v : Word) (acc : List Byte) :
    (encodeSymbols k v acc).length = k + acc.length := by
  induction k generalizing v acc with
  | zero => simp [encodeSymbols]
  | succ k ih => rw [encodeSymbols_succ, ih]; simp; omega

/-- ID2C's string has the fixed length of a code. -/
theorem id2c_length (p : Word) : (id2c p).1.length = codeLength := by simp [id2c, encodeSymbols_length]

theorem decodeSymbols_cons_some {b : Byte} {d : BitVec 6} (h : alphaInv b = some d) (s : List Byte) (acc : Word) :
    decodeSymbols (b :: s) acc = decodeSymbols s ((acc <<< 6) ||| d.setWidth 64) := by
  simp [decodeSymbols, h]

theorem decodeSymbols_cons_none {b : Byte} (h : alphaInv b = none) (s : List Byte) (acc : Word) :
    decodeSymbols (b :: s) acc = none := by
  simp [decodeSymbols, h]

/-- A code in two parts decodes the second from what the first left. -/
theorem decodeSymbols_append (x y : List Byte) (acc : Word) :
    decodeSymbols (x ++ y) acc = (decodeSymbols x acc).bind (decodeSymbols y) := by
  induction x generalizing acc with
  | nil => simp [decodeSymbols]
  | cons b x ih => cases h : alphaInv b <;> simp [decodeSymbols, h, ih]

/-- C2ID by what its loop answers. -/
theorem c2id_cases (s : List Byte) :
    (s.length = codeLength ∧ ∃ p, decodeSymbols s 0 = some p ∧ c2id s = (p, true))
      ∨ (s.length = codeLength ∧ decodeSymbols s 0 = none ∧ c2id s = (0, false))
      ∨ (s.length ≠ codeLength ∧ c2id s = (0, false)) := by
  unfold c2id
  split_ifs with h
  · cases hd : decodeSymbols s 0 with
    | some p => exact .inl ⟨h, p, rfl, rfl⟩
    | none => exact .inr (.inl ⟨h, rfl, rfl⟩)
  · exact .inr (.inr ⟨h, rfl⟩)

end Sys2Proof.Machine
end

