-- ==== Sys2Proof/Laws/Numerals.lean ====
section
/-! SUPPORT. Numerals: values of joined numerals, bounds, and the lengths of Dec and HexU. -/

namespace Sys2Proof.Machine

@[simp] theorem numeralValue_nil (digit : Byte → Nat) (base : Nat) : numeralValue digit base [] = 0 := rfl

theorem numeralValue_append (digit : Byte → Nat) (base : Nat) (x y : List Byte) :
    numeralValue digit base (x ++ y) = numeralValue digit base x * base ^ y.length + numeralValue digit base y := by
  induction x with
  | nil => simp
  | cons b x ih => simp [numeralValue, ih, pow_add]; ring

/-- Leading symbols of value 0 do not count. -/
theorem numeralValue_zeros (digit : Byte → Nat) (base : Nat) (z : Byte) (hz : digit z = 0) (n : Nat) (t : List Byte) :
    numeralValue digit base (List.replicate n z ++ t) = numeralValue digit base t := by
  induction n with
  | zero => simp
  | succ n ih => simp [List.replicate_succ, numeralValue, hz, ih]

theorem numeralValue_lt (digit : Byte → Nat) (base : Nat) (t : List Byte) (h : ∀ b ∈ t, digit b < base) :
    numeralValue digit base t < base ^ t.length := by
  induction t with
  | nil => simp
  | cons b t ih =>
    have hb : digit b + 1 ≤ base := h b (by simp)
    have ht := ih fun c hc => h c (by simp [hc])
    have hm := Nat.mul_le_mul_right (base ^ t.length) hb
    simp only [numeralValue, List.length_cons, pow_succ']
    rw [Nat.add_mul, Nat.one_mul] at hm
    omega

/-- A numeral with enough fuel is the numeral of the quotient and then the last digit. -/
theorem numeral_succ (base fuel n : Nat) :
    numeral base (fuel + 1) n
      = if n < base then [digitSymbol n] else numeral base fuel (n / base) ++ [digitSymbol (n % base)] := rfl

theorem numeral_length_pos (base fuel n : Nat) : 1 ≤ (numeral base (fuel + 1) n).length := by
  rw [numeral_succ]; split <;> simp

theorem numeral_length_le (base : Nat) (fuel n k : Nat) (hk : n < base ^ (k + 1)) :
    (numeral base fuel n).length ≤ k + 1 := by
  induction fuel generalizing n k with
  | zero => simp [numeral]
  | succ fuel ih =>
    rw [numeral_succ]
    split
    · simp
    · cases k with
      | zero => simp at hk; omega
      | succ k =>
        have := ih (n / base) k (Nat.div_lt_of_lt_mul (by rw [pow_succ'] at hk; exact hk))
        simp; omega

theorem decNumeral_length (n : Nat) (h : n < 2 ^ 32) : 1 ≤ (decNumeral n).length ∧ (decNumeral n).length ≤ 10 :=
  ⟨numeral_length_pos 10 n n, numeral_length_le 10 (n + 1) n 9 (by omega)⟩

theorem hexNumeral_length (n : Nat) (h : n < 2 ^ 12) : 1 ≤ (hexNumeral n).length ∧ (hexNumeral n).length ≤ 3 :=
  ⟨numeral_length_pos 16 n n, numeral_length_le 16 (n + 1) n 2 (by omega)⟩

/-- Every symbol of a numeral is the symbol of a digit of its base. -/
theorem numeral_mem (base fuel n : Nat) (hb : 0 < base) (b : Byte) (h : b ∈ numeral base fuel n) :
    ∃ d < base, b = digitSymbol d := by
  induction fuel generalizing n with
  | zero => simp [numeral] at h
  | succ fuel ih =>
    rw [numeral_succ] at h
    split at h
    · exact ⟨n, ‹_›, by simpa using h⟩
    · rcases List.mem_append.mp h with h | h
      · exact ih _ h
      · exact ⟨n % base, Nat.mod_lt _ hb, by simpa using h⟩

/-- The symbol of a digit below 10 is a decimal digit of that value, below 16 a hexadecimal digit of that value. -/
theorem digitSymbol_spec (d : Nat) (h : d < 16) :
    isHexDigit (digitSymbol d) = true ∧ hexVal (digitSymbol d) = d
      ∧ (d < 10 → isDecDigit (digitSymbol d) = true ∧ decVal (digitSymbol d) = d) := by
  interval_cases d <;> decide

theorem decVal_lt (b : Byte) (h : isDecDigit b = true) : decVal b < 10 := by
  simp [isDecDigit, decVal] at *; omega

theorem hexVal_lt (b : Byte) (h : isHexDigit b = true) : hexVal b < 16 := by
  revert b; decide

end Sys2Proof.Machine
end

