-- ==== Sys2Proof/Laws/Filename.lean ====
section
/-! SUPPORT. The filename codec: how strings split at dots, when the parser answers, how long a rendering is. -/

namespace Sys2Proof.Machine

@[simp] theorem splitDots_nil (k : Nat) : splitDots k [] = [[]] := by cases k <;> rfl

@[simp] theorem splitDots_zero (s : List Byte) : splitDots 0 s = [s] := by cases s <;> rfl

theorem splitDots_cons (k : Nat) (b : Byte) (s : List Byte) :
    splitDots (k + 1) (b :: s)
      = if b = dot then [] :: splitDots k s
        else match splitDots (k + 1) s with
          | [] => [[b]]
          | g :: gs => (b :: g) :: gs := rfl

theorem splitDots_ne_nil (k : Nat) (s : List Byte) : splitDots k s ≠ [] := by
  cases k with
  | zero => simp
  | succ k =>
    cases s with
    | nil => simp
    | cons b s => rw [splitDots_cons]; split_ifs <;> (try split) <;> simp

/-- A first segment without a dot, then a dot: the split goes on after it. -/
theorem splitDots_append_dot (k : Nat) (g s : List Byte) (hg : dot ∉ g) :
    splitDots (k + 1) (g ++ dot :: s) = g :: splitDots k s := by
  induction g with
  | nil => simp [splitDots_cons]
  | cons b g ih =>
    have hb : b ≠ dot := fun h => hg (by simp [h])
    have ht : dot ∉ g := fun h => hg (by simp [h])
    rw [List.cons_append, splitDots_cons, if_neg hb, ih ht]

/-- A string without a dot is one segment. -/
theorem splitDots_of_no_dot (k : Nat) (g : List Byte) (hg : dot ∉ g) : splitDots k g = [g] := by
  cases k with
  | zero => simp
  | succ k =>
    induction g with
    | nil => simp
    | cons b g ih =>
      have hb : b ≠ dot := fun h => hg (by simp [h])
      have ht : dot ∉ g := fun h => hg (by simp [h])
      rw [splitDots_cons, if_neg hb, ih ht]

/-- F2ID by what the parser answers. -/
theorem f2id_of_some {s : List Byte} {p : Word} (h : parseFilename s = some p) : f2id s = (p, true) := by
  simp [f2id, h]

theorem f2id_of_none {s : List Byte} (h : parseFilename s = none) : f2id s = (0, false) := by
  simp [f2id, h]

/-- The parser's checks, all at once. -/
theorem parseSegments_eq_some {a b c d : List Byte} {p : Word} :
    parseSegments a b c d = some p ↔
      ∃ cls ts seq, parseClass a = some cls ∧ parseTimestamp b = some ts ∧ c = [letterA]
        ∧ parseSequence d = some seq ∧ p = pack cls ts seq := by
  unfold parseSegments
  cases parseClass a <;> cases parseTimestamp b <;> cases parseSequence d <;> simp
  exact fun _ => ⟨Eq.symm, Eq.symm⟩

theorem parseClass_eq_some {a : List Byte} {cls : BitVec 4} :
    parseClass a = some cls ↔ (a = [letterM] ∧ cls = 0) ∨ (a = [letterG] ∧ cls = 1) := by
  unfold parseClass
  split_ifs with h1 h2
  · subst h1; simp [letterM, letterG, @eq_comm _ cls]
  · subst h2; simp [letterM, letterG, @eq_comm _ cls]
  · simp [h1, h2]

theorem parseTimestamp_eq_some {b : List Byte} {ts : BitVec 32} :
    parseTimestamp b = some ts ↔
      b ≠ [] ∧ (∀ x ∈ b, isDecDigit x = true) ∧ 1 ≤ decValue b ∧ decValue b ≤ 0xFFFFFFFF
        ∧ ts = BitVec.ofNat 32 (decValue b) := by
  unfold parseTimestamp
  split_ifs with h1 h2
  · simp only [false_iff]
    rintro ⟨hne, hd, -⟩
    rcases h1 with h1 | h1
    · exact hne h1
    · rw [List.all_eq_true.mpr hd] at h1; simp at h1
  · simp only [false_iff]; rintro ⟨-, -, h3, h4, -⟩; omega
  · push Not at h1 h2
    have hd : ∀ x ∈ b, isDecDigit x = true := List.all_eq_true.mp (by simpa using h1.2)
    constructor
    · intro h; exact ⟨h1.1, hd, by omega, by omega, by simpa [eq_comm] using h⟩
    · rintro ⟨-, -, -, -, rfl⟩; rfl

theorem parseSequence_eq_some {d : List Byte} {seq : BitVec 12} :
    parseSequence d = some seq ↔
      (∀ x ∈ d, isHexDigit x = true) ∧ hexValue d ≤ 0xFFF ∧ seq = BitVec.ofNat 12 (hexValue d) := by
  unfold parseSequence
  split_ifs with h1 h2 h3
  · subst h1; simp [hexValue, @eq_comm _ seq]
  · simp only [false_iff]
    rintro ⟨hd, -⟩
    rw [List.all_eq_true.mpr hd] at h2; simp at h2
  · simp only [false_iff]; rintro ⟨-, h4, -⟩; omega
  · have hd : ∀ x ∈ d, isHexDigit x = true := List.all_eq_true.mp (by simpa using h2)
    constructor
    · intro h; exact ⟨hd, by omega, by simpa [eq_comm] using h⟩
    · rintro ⟨-, -, rfl⟩; rfl

/-- A rendering is 5 bytes longer than its two numerals. -/
theorem renderFilename_length (c : Byte) (ts seq : Nat) :
    (renderFilename c ts seq).length = 5 + (decNumeral ts).length + (hexNumeral seq).length := by
  simp [renderFilename]; omega

/-- Everything ID2F can answer: the rendering for class 0 and 1, the empty string for the rest. -/
theorem id2f_cases (p : Word) :
    (∃ c, (c = letterM ∧ pidClass p = 0 ∨ c = letterG ∧ pidClass p = 1)
        ∧ id2f p = (renderFilename c (pidTimestamp p).toNat (pidSequence p).toNat, true))
      ∨ (pidClass p ≠ 0 ∧ pidClass p ≠ 1 ∧ id2f p = ([], false)) := by
  unfold id2f classLetter
  split_ifs with h0 h1
  · exact .inl ⟨letterM, by simp [h0], rfl⟩
  · exact .inl ⟨letterG, by simp [h1], rfl⟩
  · exact .inr ⟨h0, h1, rfl⟩

/-- ID2F's string fits in OUT_BUF. -/
theorem id2f_length_le (p : Word) : (id2f p).1.length ≤ Config.outBufSize := by
  rcases id2f_cases p with ⟨c, -, h⟩ | ⟨-, -, h⟩
  · have h1 := decNumeral_length (pidTimestamp p).toNat (pidTimestamp p).isLt
    have h2 := hexNumeral_length (pidSequence p).toNat (pidSequence p).isLt
    rw [h]; simp only [renderFilename_length, Config.outBufSize]; omega
  · simp [h]

end Sys2Proof.Machine
end

