-- ==== Sys2Proof/Laws/Flags.lean ====
section
/-! SUPPORT. The STATUS byte: it depends on four fields only, and what it is after each way a command can go. -/

namespace Sys2Proof.Machine

/-- STATUS is a function of PHASE, DONE, OK and CAUSE. -/
theorem statusByte_congr {s t : State} (hp : s.phase = t.phase) (hd : s.done = t.done) (ho : s.ok = t.ok)
    (hc : s.cause = t.cause) : s.statusByte = t.statusByte := by
  unfold State.statusByte busyBit; rw [hp, hd, ho, hc]

/-- STATUS after a completed command (10_state.md R27). -/
theorem statusByte_completed {s : State} {k : Bool} (hp : s.phase = .idle) (hd : s.done = true) (ho : s.ok = k)
    (hc : s.cause = causeOfOk k) : s.statusByte = if k = true then 0x06 else 0x12 := by
  unfold State.statusByte busyBit; rw [hp, hd, ho, hc]; cases k <;> decide

/-- STATUS while a command is in progress (40_host_interface.md R104). -/
theorem statusByte_accepted {s : State} (hp : s.phase = .busy) (hd : s.done = false) (ho : s.ok = false)
    (hc : s.cause = .none) : s.statusByte = 0x01 := by
  unfold State.statusByte busyBit; rw [hp, hd, ho, hc]; decide

/-- Bit 1 of STATUS is DONE (10_state.md R26). -/
theorem statusByte_done (s : State) : s.statusByte.getLsbD 1 = s.done := by
  unfold State.statusByte busyBit
  cases s.phase <;> cases s.done <;> cases s.ok <;> cases s.cause <;> decide

end Sys2Proof.Machine
end

