-- ==== Sys2Proof/Laws/State.lean ====
section
/-! SUPPORT. One lemma per field per update of State: what each named operation leaves in the field. -/

namespace Sys2Proof.Machine

variable (s : State)

/-! ### zeroResults -/

@[simp] theorem State.zeroResults_phase : s.zeroResults.phase = s.phase := rfl

@[simp] theorem State.zeroResults_lop : s.zeroResults.lop = s.lop := rfl

@[simp] theorem State.zeroResults_done : s.zeroResults.done = s.done := rfl

@[simp] theorem State.zeroResults_ok : s.zeroResults.ok = s.ok := rfl

@[simp] theorem State.zeroResults_cause : s.zeroResults.cause = s.cause := rfl

@[simp] theorem State.zeroResults_inLen : s.zeroResults.inLen = s.inLen := rfl

@[simp] theorem State.zeroResults_pidIn : s.zeroResults.pidIn = s.pidIn := rfl

@[simp] theorem State.zeroResults_inBuf : s.zeroResults.inBuf = s.inBuf := rfl

@[simp] theorem State.zeroResults_pidOut : s.zeroResults.pidOut = 0 := rfl

@[simp] theorem State.zeroResults_outLen : s.zeroResults.outLen = 0 := rfl

@[simp] theorem State.zeroResults_outBuf : s.zeroResults.outBuf = List.replicate Config.outBufSize 0 := rfl

@[simp] theorem State.zeroResults_host : s.zeroResults.host = s.host := rfl

@[simp] theorem State.zeroResults_schedule : s.zeroResults.schedule = s.schedule := rfl

@[simp] theorem State.zeroResults_reads : s.zeroResults.reads = s.reads := rfl

@[simp] theorem State.zeroResults_draws : s.zeroResults.draws = s.draws := rfl

/-! ### reject -/

@[simp] theorem State.reject_phase (k : Cause) : (s.reject k).phase = s.phase := rfl

@[simp] theorem State.reject_lop (k : Cause) : (s.reject k).lop = s.lop := rfl

@[simp] theorem State.reject_done (k : Cause) : (s.reject k).done = true := rfl

@[simp] theorem State.reject_ok (k : Cause) : (s.reject k).ok = false := rfl

@[simp] theorem State.reject_cause (k : Cause) : (s.reject k).cause = k := rfl

@[simp] theorem State.reject_inLen (k : Cause) : (s.reject k).inLen = s.inLen := rfl

@[simp] theorem State.reject_pidIn (k : Cause) : (s.reject k).pidIn = s.pidIn := rfl

@[simp] theorem State.reject_inBuf (k : Cause) : (s.reject k).inBuf = s.inBuf := rfl

@[simp] theorem State.reject_pidOut (k : Cause) : (s.reject k).pidOut = 0 := rfl

@[simp] theorem State.reject_outLen (k : Cause) : (s.reject k).outLen = 0 := rfl

@[simp] theorem State.reject_outBuf (k : Cause) : (s.reject k).outBuf = List.replicate Config.outBufSize 0 := rfl

@[simp] theorem State.reject_host (k : Cause) : (s.reject k).host = s.host := rfl

@[simp] theorem State.reject_schedule (k : Cause) : (s.reject k).schedule = s.schedule := rfl

@[simp] theorem State.reject_reads (k : Cause) : (s.reject k).reads = s.reads := rfl

@[simp] theorem State.reject_draws (k : Cause) : (s.reject k).draws = s.draws := rfl

/-! ### accept -/

@[simp] theorem State.accept_phase (op : BitVec 2) : (s.accept op).phase = .busy := rfl

@[simp] theorem State.accept_lop (op : BitVec 2) : (s.accept op).lop = op := rfl

@[simp] theorem State.accept_done (op : BitVec 2) : (s.accept op).done = false := rfl

@[simp] theorem State.accept_ok (op : BitVec 2) : (s.accept op).ok = false := rfl

@[simp] theorem State.accept_cause (op : BitVec 2) : (s.accept op).cause = .none := rfl

@[simp] theorem State.accept_inLen (op : BitVec 2) : (s.accept op).inLen = s.inLen := rfl

@[simp] theorem State.accept_pidIn (op : BitVec 2) : (s.accept op).pidIn = s.pidIn := rfl

@[simp] theorem State.accept_inBuf (op : BitVec 2) : (s.accept op).inBuf = s.inBuf := rfl

@[simp] theorem State.accept_pidOut (op : BitVec 2) : (s.accept op).pidOut = s.pidOut := rfl

@[simp] theorem State.accept_outLen (op : BitVec 2) : (s.accept op).outLen = s.outLen := rfl

@[simp] theorem State.accept_outBuf (op : BitVec 2) : (s.accept op).outBuf = s.outBuf := rfl

@[simp] theorem State.accept_host (op : BitVec 2) : (s.accept op).host = s.host := rfl

@[simp] theorem State.accept_schedule (op : BitVec 2) : (s.accept op).schedule = s.schedule := rfl

@[simp] theorem State.accept_reads (op : BitVec 2) : (s.accept op).reads = s.reads := rfl

@[simp] theorem State.accept_draws (op : BitVec 2) : (s.accept op).draws = s.draws := rfl

/-! ### wbWord -/

@[simp] theorem State.wbWord_phase (p : Word) (k : Bool) : (s.wbWord p k).phase = s.phase := rfl

@[simp] theorem State.wbWord_lop (p : Word) (k : Bool) : (s.wbWord p k).lop = s.lop := rfl

@[simp] theorem State.wbWord_done (p : Word) (k : Bool) : (s.wbWord p k).done = s.done := rfl

@[simp] theorem State.wbWord_ok (p : Word) (k : Bool) : (s.wbWord p k).ok = k := rfl

@[simp] theorem State.wbWord_cause (p : Word) (k : Bool) : (s.wbWord p k).cause = causeOfOk k := rfl

@[simp] theorem State.wbWord_inLen (p : Word) (k : Bool) : (s.wbWord p k).inLen = s.inLen := rfl

@[simp] theorem State.wbWord_pidIn (p : Word) (k : Bool) : (s.wbWord p k).pidIn = s.pidIn := rfl

@[simp] theorem State.wbWord_inBuf (p : Word) (k : Bool) : (s.wbWord p k).inBuf = s.inBuf := rfl

@[simp] theorem State.wbWord_pidOut (p : Word) (k : Bool) : (s.wbWord p k).pidOut = p := rfl

@[simp] theorem State.wbWord_outLen (p : Word) (k : Bool) : (s.wbWord p k).outLen = 0 := rfl

@[simp] theorem State.wbWord_outBuf (p : Word) (k : Bool) :
    (s.wbWord p k).outBuf = List.replicate Config.outBufSize 0 := rfl

@[simp] theorem State.wbWord_host (p : Word) (k : Bool) : (s.wbWord p k).host = s.host := rfl

@[simp] theorem State.wbWord_schedule (p : Word) (k : Bool) : (s.wbWord p k).schedule = s.schedule := rfl

@[simp] theorem State.wbWord_reads (p : Word) (k : Bool) : (s.wbWord p k).reads = s.reads := rfl

@[simp] theorem State.wbWord_draws (p : Word) (k : Bool) : (s.wbWord p k).draws = s.draws := rfl

/-! ### wbStr -/

@[simp] theorem State.wbStr_phase (t : List Byte) (k : Bool) : (s.wbStr t k).phase = s.phase := rfl

@[simp] theorem State.wbStr_lop (t : List Byte) (k : Bool) : (s.wbStr t k).lop = s.lop := rfl

@[simp] theorem State.wbStr_done (t : List Byte) (k : Bool) : (s.wbStr t k).done = s.done := rfl

@[simp] theorem State.wbStr_ok (t : List Byte) (k : Bool) : (s.wbStr t k).ok = k := rfl

@[simp] theorem State.wbStr_cause (t : List Byte) (k : Bool) : (s.wbStr t k).cause = causeOfOk k := rfl

@[simp] theorem State.wbStr_inLen (t : List Byte) (k : Bool) : (s.wbStr t k).inLen = s.inLen := rfl

@[simp] theorem State.wbStr_pidIn (t : List Byte) (k : Bool) : (s.wbStr t k).pidIn = s.pidIn := rfl

@[simp] theorem State.wbStr_inBuf (t : List Byte) (k : Bool) : (s.wbStr t k).inBuf = s.inBuf := rfl

@[simp] theorem State.wbStr_pidOut (t : List Byte) (k : Bool) : (s.wbStr t k).pidOut = 0 := rfl

@[simp] theorem State.wbStr_outLen (t : List Byte) (k : Bool) : (s.wbStr t k).outLen = BitVec.ofNat 8 t.length := rfl

@[simp] theorem State.wbStr_outBuf (t : List Byte) (k : Bool) : (s.wbStr t k).outBuf = outBufHolding t := rfl

@[simp] theorem State.wbStr_host (t : List Byte) (k : Bool) : (s.wbStr t k).host = s.host := rfl

@[simp] theorem State.wbStr_schedule (t : List Byte) (k : Bool) : (s.wbStr t k).schedule = s.schedule := rfl

@[simp] theorem State.wbStr_reads (t : List Byte) (k : Bool) : (s.wbStr t k).reads = s.reads := rfl

@[simp] theorem State.wbStr_draws (t : List Byte) (k : Bool) : (s.wbStr t k).draws = s.draws := rfl

/-! ### finish -/

@[simp] theorem State.finish_phase : s.finish.phase = .idle := rfl

@[simp] theorem State.finish_lop : s.finish.lop = s.lop := rfl

@[simp] theorem State.finish_done : s.finish.done = true := rfl

@[simp] theorem State.finish_ok : s.finish.ok = s.ok := rfl

@[simp] theorem State.finish_cause : s.finish.cause = s.cause := rfl

@[simp] theorem State.finish_inLen : s.finish.inLen = s.inLen := rfl

@[simp] theorem State.finish_pidIn : s.finish.pidIn = s.pidIn := rfl

@[simp] theorem State.finish_inBuf : s.finish.inBuf = s.inBuf := rfl

@[simp] theorem State.finish_pidOut : s.finish.pidOut = s.pidOut := rfl

@[simp] theorem State.finish_outLen : s.finish.outLen = s.outLen := rfl

@[simp] theorem State.finish_outBuf : s.finish.outBuf = s.outBuf := rfl

@[simp] theorem State.finish_host : s.finish.host = s.host := rfl

@[simp] theorem State.finish_schedule : s.finish.schedule = s.schedule := rfl

@[simp] theorem State.finish_reads : s.finish.reads = s.reads := rfl

@[simp] theorem State.finish_draws : s.finish.draws = s.draws := rfl

/-! ### blockReset -/

@[simp] theorem State.blockReset_phase : s.blockReset.phase = .idle := rfl

@[simp] theorem State.blockReset_lop : s.blockReset.lop = 0 := rfl

@[simp] theorem State.blockReset_done : s.blockReset.done = false := rfl

@[simp] theorem State.blockReset_ok : s.blockReset.ok = false := rfl

@[simp] theorem State.blockReset_cause : s.blockReset.cause = .none := rfl

@[simp] theorem State.blockReset_inLen : s.blockReset.inLen = 0 := rfl

@[simp] theorem State.blockReset_pidIn : s.blockReset.pidIn = 0 := rfl

@[simp] theorem State.blockReset_inBuf : s.blockReset.inBuf = List.replicate s.lIn 0 := rfl

@[simp] theorem State.blockReset_pidOut : s.blockReset.pidOut = 0 := rfl

@[simp] theorem State.blockReset_outLen : s.blockReset.outLen = 0 := rfl

@[simp] theorem State.blockReset_outBuf : s.blockReset.outBuf = List.replicate Config.outBufSize 0 := rfl

@[simp] theorem State.blockReset_host : s.blockReset.host = s.host := rfl

@[simp] theorem State.blockReset_schedule : s.blockReset.schedule = s.schedule := rfl

@[simp] theorem State.blockReset_reads : s.blockReset.reads = s.reads := rfl

@[simp] theorem State.blockReset_draws : s.blockReset.draws = s.draws := rfl

/-! ### hostRead -/

@[simp] theorem State.hostRead_phase (r : RegNum) : (s.hostRead r).phase = s.phase := rfl

@[simp] theorem State.hostRead_lop (r : RegNum) : (s.hostRead r).lop = s.lop := rfl

@[simp] theorem State.hostRead_done (r : RegNum) : (s.hostRead r).done = s.done := rfl

@[simp] theorem State.hostRead_ok (r : RegNum) : (s.hostRead r).ok = s.ok := rfl

@[simp] theorem State.hostRead_cause (r : RegNum) : (s.hostRead r).cause = s.cause := rfl

@[simp] theorem State.hostRead_inLen (r : RegNum) : (s.hostRead r).inLen = s.inLen := rfl

@[simp] theorem State.hostRead_pidIn (r : RegNum) : (s.hostRead r).pidIn = s.pidIn := rfl

@[simp] theorem State.hostRead_inBuf (r : RegNum) : (s.hostRead r).inBuf = s.inBuf := rfl

@[simp] theorem State.hostRead_pidOut (r : RegNum) : (s.hostRead r).pidOut = s.pidOut := rfl

@[simp] theorem State.hostRead_outLen (r : RegNum) : (s.hostRead r).outLen = s.outLen := rfl

@[simp] theorem State.hostRead_outBuf (r : RegNum) : (s.hostRead r).outBuf = s.outBuf := rfl

@[simp] theorem State.hostRead_host (r : RegNum) : (s.hostRead r).host = s.host := rfl

@[simp] theorem State.hostRead_schedule (r : RegNum) : (s.hostRead r).schedule = s.schedule := rfl

@[simp] theorem State.hostRead_reads (r : RegNum) : (s.hostRead r).reads = s.reads ++ [⟨r, s.readValue r⟩] := rfl

@[simp] theorem State.hostRead_draws (r : RegNum) :
    (s.hostRead r).draws = if s.readIsDrawn (regOf s.lIn r) = true then s.draws + 1 else s.draws := rfl

end Sys2Proof.Machine
end

