-- ==== Sys2Proof/Laws/HostPort.lean ====
section
/-! SUPPORT. The host's transactions: what a register number names, and everything a write, a read and a host operation can
do. -/

namespace Sys2Proof.Machine

/-- From 0x07 on a register number lies in a window or is reserved (10_state.md R24, R35). -/
theorem regOf_high (lIn : Nat) (r : RegNum) (h : 0x07 ≤ r.toNat) :
    regOf lIn r
      = if inBufBase ≤ r.toNat ∧ r.toNat < inBufBase + lIn then .inBuf (r.toNat - inBufBase)
        else if outBufBase ≤ r.toNat ∧ r.toNat < outBufBase + Config.outBufSize then .outBuf (r.toNat - outBufBase)
        else .reserved := by
  have hlow : ∀ n : RegNum, n.toNat < 0x07 → r ≠ n := fun n hn he => by subst he; omega
  unfold regOf
  simp only [if_neg (hlow 0 (by decide)), if_neg (hlow 1 (by decide)), if_neg (hlow 2 (by decide)),
    if_neg (hlow 3 (by decide)), if_neg (hlow 4 (by decide)), if_neg (hlow 5 (by decide)), if_neg (hlow 6 (by decide))]

theorem regOf_inBuf (lIn : Nat) (r : RegNum) (h0 : 0x40 ≤ r.toNat) (h1 : r.toNat < 0x40 + lIn) :
    regOf lIn r = .inBuf (r.toNat - 0x40) :=
  (regOf_high lIn r (by omega)).trans (if_pos ⟨h0, h1⟩)

/-- In a block of legal capacity the windows lie apart. -/
theorem regOf_outBuf (lIn : Nat) (hl : lIn ≤ 64) (r : RegNum) (h0 : 0x80 ≤ r.toNat) (h1 : r.toNat ≤ 0x91) :
    regOf lIn r = .outBuf (r.toNat - 0x80) :=
  (regOf_high lIn r (by omega)).trans
    ((if_neg (by unfold inBufBase; omega)).trans (if_pos (by unfold outBufBase Config.outBufSize; omega)))

theorem regOf_reserved (lIn : Nat) (r : RegNum) (h0 : 0x07 ≤ r.toNat)
    (h1 : ¬ (0x40 ≤ r.toNat ∧ r.toNat < 0x40 + lIn)) (h2 : ¬ (0x80 ≤ r.toNat ∧ r.toNat ≤ 0x91)) :
    regOf lIn r = .reserved :=
  (regOf_high lIn r h0).trans
    ((if_neg (by unfold inBufBase; omega)).trans (if_neg (by unfold outBufBase Config.outBufSize; omega)))

@[simp] theorem State.readValue_status (s : State) : s.readValue statusNumber = s.statusByte.setWidth 64 := by
  simp [State.readValue, statusNumber, regOf, State.readIsDrawn, isResultReg, State.storedValue]

/-- Everything a CMD write can do (40_host_interface.md R104). -/
theorem State.cmdWrite_cases (s : State) (c : Byte) :
    (rsvField c ≠ 0 ∧ s.cmdWrite c = s.reject .badCmd)
      ∨ (rsvField c = 0 ∧ readsString (instrOfOp (opField c)) = true ∧ s.lIn < s.inLen.toNat
          ∧ s.cmdWrite c = s.reject .badLen)
      ∨ (rsvField c = 0 ∧ (readsString (instrOfOp (opField c)) = true → s.inLen.toNat ≤ s.lIn)
          ∧ s.cmdWrite c = s.accept (opField c)) := by
  have hop : ∀ op : BitVec 2, opOfInstr (instrOfOp op) = op := by decide
  unfold State.cmdWrite decodeByte
  by_cases hr : rsvField c = 0
  · simp only [if_pos hr, hop]
    split_ifs with h
    · exact .inr (.inl ⟨hr, h.1, h.2, rfl⟩)
    · exact .inr (.inr ⟨hr, fun hs => by by_contra hc; exact h ⟨hs, by omega⟩, rfl⟩)
  · exact .inl ⟨hr, by simp only [if_neg hr]⟩

/-- Everything a host write can do (40_host_interface.md R101, R103): nothing, the issue of a command, or one operand
register while IDLE. -/
theorem State.hostWrite_cases (s : State) (r : RegNum) (d : Word) :
    s.hostWrite r d = s
      ∨ (s.phase = .idle ∧ r = 0x00 ∧ s.hostWrite r d = s.cmdWrite (d.setWidth 8))
      ∨ (s.phase = .idle ∧ s.hostWrite r d = { s with inLen := d.setWidth 8 })
      ∨ (s.phase = .idle ∧ s.hostWrite r d = { s with pidIn := d })
      ∨ (s.phase = .idle ∧ ∃ i, s.hostWrite r d = { s with inBuf := s.inBuf.set i (d.setWidth 8) }) := by
  unfold State.hostWrite
  cases hp : s.phase with
  | busy => exact .inl rfl
  | idle =>
    simp only [true_and]
    unfold regOf
    split_ifs with h0 h1 h2 h3 h4 h5 h6 h7 h8
    · exact .inr (.inl ⟨h0, rfl⟩)
    · exact .inl rfl
    · exact .inr (.inr (.inl rfl))
    · exact .inl rfl
    · exact .inr (.inr (.inr (.inl rfl)))
    · exact .inl rfl
    · exact .inl rfl
    · exact .inr (.inr (.inr (.inr ⟨_, rfl⟩)))
    · exact .inl rfl
    · exact .inl rfl

theorem State.hostWrite_busy (s : State) (r : RegNum) (d : Word) (h : s.phase = .busy) : s.hostWrite r d = s := by
  simp [State.hostWrite, h]

/-- Everything a host operation can do: a write, the Reset step, or reads, which change only the host's own fields. -/
theorem State.hostOp_cases (s : State) (op : HostOp) :
    (∃ r d, op = .write r d ∧ s.hostOp op = s.hostWrite r d) ∨ (op = .reset ∧ s.hostOp op = s.blockReset)
      ∨ (∃ h rs n, s.hostOp op = { s with host := h, reads := rs, draws := n }) := by
  cases op with
  | write r d => exact .inl ⟨r, d, rfl, rfl⟩
  | reset => exact .inr (.inl ⟨rfl, rfl⟩)
  | read r => exact .inr (.inr ⟨s.host, _, _, rfl⟩)
  | wait =>
    refine .inr (.inr ?_)
    unfold State.hostOp
    split_ifs
    · exact ⟨s.host, _, _, rfl⟩
    · exact ⟨_, _, _, rfl⟩
  | gets => exact .inr (.inr ⟨_, _, _, rfl⟩)

end Sys2Proof.Machine
end

