-- ==== Sys2Proof/Laws/Ops.lean ====
section
/-! SUPPORT. The shared operations: OUT_BUF after a write-back, and everything a command can do. -/

namespace Sys2Proof.Machine

@[simp] theorem outBufHolding_length (t : List Byte) : (outBufHolding t).length = Config.outBufSize := by
  simp [outBufHolding]

@[simp] theorem outBufHolding_nil : outBufHolding [] = List.replicate Config.outBufSize 0 := by simp [outBufHolding]

/-- A string that fits stands in OUT_BUF whole, zeros after it. -/
theorem outBufHolding_of_le (t : List Byte) (h : t.length ≤ Config.outBufSize) :
    outBufHolding t = t ++ List.replicate (Config.outBufSize - t.length) 0 := by
  simp [outBufHolding, List.take_append, List.take_of_length_le h]

theorem causeOfOk_eq_none_iff (k : Bool) : causeOfOk k = .none ↔ k = true := by cases k <;> simp [causeOfOk]

/-- Everything a command can do: a word command writes its word back, a string command its string, and the command ends.
No command stops. -/
theorem exec_cases (i : Instr) (s : State) :
    (∃ r, ((i = .f2id ∧ r = f2id s.stringOperand) ∨ (i = .c2id ∧ r = c2id s.stringOperand))
        ∧ exec i s = .next (s.wbWord r.1 r.2).finish)
      ∨ (∃ r, ((i = .id2f ∧ r = id2f s.pidIn) ∨ (i = .id2c ∧ r = id2c s.pidIn))
        ∧ r.1.length ≤ Config.outBufSize ∧ exec i s = .next (s.wbStr r.1 r.2).finish) := by
  cases i with
  | f2id => exact .inl ⟨_, .inl ⟨rfl, rfl⟩, rfl⟩
  | c2id => exact .inl ⟨_, .inr ⟨rfl, rfl⟩, rfl⟩
  | id2f => exact .inr ⟨_, .inl ⟨rfl, rfl⟩, id2f_length_le _, rfl⟩
  | id2c => exact .inr ⟨_, .inr ⟨rfl, rfl⟩, by rw [id2c_length]; decide, rfl⟩

end Sys2Proof.Machine
end

