-- ==== Sys2Proof/Laws/PerInstr.lean ====
section
/-! SUPPORT. A statement for every command as syntax: its CMD byte has the fields of 30_encoding.md R70 and R71. -/

namespace Sys2Proof.Laws

/-- The CMD byte of a command is well formed, has RSV = 0 and the OP of the opcode map, and the map reads that OP as the
command. -/
def CommandFields.Statement (i : Instr) : Prop :=
  i.wellFormed = true ∧ rsvField (encode i) = 0 ∧ opField (encode i) = opOfInstr i ∧ instrOfOp (opOfInstr i) = i

theorem CommandFields.f2id : CommandFields.Statement .f2id := by unfold CommandFields.Statement; decide

theorem CommandFields.id2f : CommandFields.Statement .id2f := by unfold CommandFields.Statement; decide

theorem CommandFields.id2c : CommandFields.Statement .id2c := by unfold CommandFields.Statement; decide

theorem CommandFields.c2id : CommandFields.Statement .c2id := by unfold CommandFields.Statement; decide

end Sys2Proof.Laws
end

