-- ==== Sys2Proof/Laws/Step.lean ====
section
/-! SUPPORT. Everything a step can do, said once. -/

namespace Sys2Proof.Machine

/-- A step that answers a next state is the engine's Complete, an idle turn of the engine, an empty turn of the host, or
the host's next operation. -/
theorem step_cases {s t : State} (h : step s = .next t) :
    (s.phase = .busy ∧ s.nextAgent = .engine
        ∧ exec (instrOfOp s.lop) { s with schedule := s.schedule.tail } = .next t)
      ∨ (s.phase = .idle ∧ s.nextAgent = .engine ∧ t = { s with schedule := s.schedule.tail })
      ∨ (s.host = [] ∧ s.nextAgent = .host ∧ t = { s with schedule := s.schedule.tail })
      ∨ (∃ op rest, s.host = op :: rest ∧ s.nextAgent = .host
          ∧ t = { s with schedule := s.schedule.tail, host := rest }.hostOp op) := by
  unfold step State.takeTurn at h
  cases ha : s.nextAgent with
  | engine =>
    simp only [ha] at h
    cases hp : s.phase with
    | busy => exact .inl ⟨rfl, rfl, by simpa [State.engineTurn, hp, State.complete] using h⟩
    | idle => exact .inr (.inl ⟨rfl, rfl, by simpa [State.engineTurn, hp, eq_comm] using h⟩)
  | host =>
    simp only [ha, Host.Outcome.next.injEq] at h
    cases hh : s.host with
    | nil => exact .inr (.inr (.inl ⟨rfl, rfl, by simpa [State.hostTurn, hh, eq_comm] using h⟩))
    | cons op rest => exact .inr (.inr (.inr ⟨op, rest, rfl, rfl, by simpa [State.hostTurn, hh, eq_comm] using h⟩))

/-- A run goes on from what its first step answers. -/
theorem core_run_succ {s t : State} (h : step s = .next t) (k : Nat) : core.run (k + 1) s = core.run k t := by
  have h' : core.step s = .next t := h
  simp only [Host.Core.run, h']

/-- The legal capacities as bounds. -/
theorem lInLegal_iff (n : Nat) : lInLegal n = true ↔ 18 ≤ n ∧ n ≤ 64 := by
  simp only [lInLegal, Bool.and_eq_true, decide_eq_true_eq]; exact Iff.rfl

end Sys2Proof.Machine
end

