-- ==== Sys2Proof/Tests/Slice0.lean ====
section
/-! SUPPORT. Tests of one step or one function each, with results taken from the spec's own vectors
(95_test_vectors.md), and for every statement with hypotheses a witness that meets them. -/

namespace Sys2Proof.Tests

open Sys2Proof.Machine

/-! ### Helpers -/

/-- A string written as characters (30_encoding.md, ASCII codes). -/
def text (cs : List Char) : List Byte := cs.map fun c => BitVec.ofNat 8 c.toNat

/-- The reset state with the string `t` presented as the operand. -/
def holding (t : List Byte) : State :=
  { State.reset with inBuf := t ++ List.replicate (64 - t.length) 0, inLen := BitVec.ofNat 8 t.length }

/-- The reset state with `p` in PID_IN. -/
def withPid (p : Word) : State := { State.reset with pidIn := p }

/-- The state an outcome answers; the reset state for a stop, which no test meets. -/
def after (o : Host.Outcome State Fault Refusal) : State :=
  match o with
  | .next t => t
  | .fault _ => State.reset
  | .refused _ => State.reset

/-- What a command leaves for a PID result: STATUS and PID_OUT. -/
def word (i : Instr) (s : State) : Byte × Word := ((after (exec i s)).statusByte, (after (exec i s)).pidOut)

/-- What a command leaves for a string result: STATUS, OUT_LEN and OUT_BUF up to OUT_LEN. -/
def string (i : Instr) (s : State) : Byte × Nat × List Byte :=
  ((after (exec i s)).statusByte, (after (exec i s)).outLen.toNat,
    (after (exec i s)).outBuf.take (after (exec i s)).outLen.toNat)

/-- `s` after one host write. -/
def wr (s : State) (r : RegNum) (d : Word) : State := s.hostOp (.write r d)

/-- A filename with the longest rendering, "G.4294967295.A.FFF". -/
def longName : List Byte :=
  text ['G', '.', '4', '2', '9', '4', '9', '6', '7', '2', '9', '5', '.', 'A', '.', 'F', 'F', 'F']

/-! ### Decoding: words written out from 30_encoding.md R70 (`000000oo`) -/

theorem test_decode_f2id : decode [0b00000000#8] = .ok (.f2id, []) := by decide
theorem test_decode_id2f : decode [0b00000001#8] = .ok (.id2f, []) := by decide
theorem test_decode_id2c : decode [0b00000010#8] = .ok (.id2c, []) := by decide
theorem test_decode_c2id : decode [0b00000011#8] = .ok (.c2id, []) := by decide

/-- 30_encoding.md R73; vectors H2, H4 and H3. -/
theorem test_decode_reserved :
    decode [0x04] = .error (.reservedCommand 0x04) ∧ decode [0x83] = .error (.reservedCommand 0x83)
      ∧ decode [0xFF] = .error (.reservedCommand 0xFF) ∧ decode [] = .error .noByte := by decide

theorem test_decodeTableWord :
    decodeTableWord 8 0 = some .f2id ∧ decodeTableWord 8 1 = some .id2f ∧ decodeTableWord 8 2 = some .id2c
      ∧ decodeTableWord 8 3 = some .c2id ∧ decodeTableWord 8 4 = none ∧ decodeTableWord 8 255 = none := by decide

/-- The word of each command is what the next step runs, as the first command after reset. -/
theorem test_placed_f2id : step (State.reset.withFetchWord 8 0) = exec .f2id (State.reset.withFetchWord 8 0) := rfl
theorem test_placed_id2f : step (State.reset.withFetchWord 8 1) = exec .id2f (State.reset.withFetchWord 8 1) := rfl
theorem test_placed_id2c : step (State.reset.withFetchWord 8 2) = exec .id2c (State.reset.withFetchWord 8 2) := rfl
theorem test_placed_c2id : step (State.reset.withFetchWord 8 3) = exec .c2id (State.reset.withFetchWord 8 3) := rfl

/-- A word that is no command is written to CMD, which rejects it: STATUS 0x22 (vector H2). -/
theorem test_placed_reserved : (after (step (State.reset.withFetchWord 8 4))).statusByte = 0x22 := by decide

/-! ### Well-formedness -/

/-- A command has no field that could be ill formed (30_encoding.md R74). -/
theorem test_wellFormed :
    Instr.wellFormed .f2id = true ∧ Instr.wellFormed .id2f = true ∧ Instr.wellFormed .id2c = true
      ∧ Instr.wellFormed .c2id = true := by decide

/-- 00_scope.md R7: the check of L_IN refuses the values beside its bounds. -/
theorem test_lInLegal_refuses : lInLegal 17 = false ∧ lInLegal 65 = false ∧ lInLegal 0 = false := by decide

theorem test_lInLegal_accepts : lInLegal 18 = true ∧ lInLegal 64 = true := by decide

/-! ### One command each (95_test_vectors.md sections 1 and 2) -/

/-- W1: "M.123456789.A.0DC". -/
theorem test_f2id_accepts :
    word .f2id (holding (text ['M', '.', '1', '2', '3', '4', '5', '6', '7', '8', '9', '.', 'A', '.', '0', 'D', 'C']))
      = (0x06, 0x00000075BCD150DC) := by decide

/-- Section 2.2: "M.1.A.F.F", whose fourth segment is "F.F". -/
theorem test_f2id_refuses :
    word .f2id (holding (text ['M', '.', '1', '.', 'A', '.', 'F', '.', 'F'])) = (0x12, 0) := by decide

/-- W2, with bits 63:48 set, which are not read. -/
theorem test_id2f_accepts :
    string .id2f (withPid 0xFFFF0075BCD150DC)
      = (0x06, 16, text ['M', '.', '1', '2', '3', '4', '5', '6', '7', '8', '9', '.', 'A', '.', 'D', 'C']) := by decide

/-- W14: class 2. -/
theorem test_id2f_refuses : string .id2f (withPid 0x0000200000001000) = (0x12, 0, []) := by decide

/-- Section 2.4, program P1. -/
theorem test_id2c_symbols :
    string .id2c (withPid 0x00000075BCD150DC) = (0x06, 8, text ['0', '7', 'M', 'y', 'q', 'L', '3', 'S']) := by decide

/-- W16, and every symbol 63. -/
theorem test_id2c_high_bits :
    string .id2c (withPid 0xFFFF000000000000) = (0x06, 8, text ['0', '0', '0', '0', '0', '0', '0', '0'])
      ∧ string .id2c (withPid 0x0000FFFFFFFFFFFF) = (0x06, 8, text ['_', '_', '_', '_', '_', '_', '_', '_']) := by
  decide

/-- Section 2.5: "400001gy", program P2; and W15, a success with the sentinel's value. -/
theorem test_c2id_accepts :
    word .c2id (holding (text ['4', '0', '0', '0', '0', '1', 'g', 'y'])) = (0x06, 0x0000100000001ABC)
      ∧ word .c2id (holding (text ['0', '0', '0', '0', '0', '0', '0', '0'])) = (0x06, 0) := by decide

/-- W12, and the lengths 7 and 9. -/
theorem test_c2id_refuses :
    word .c2id (holding (text ['!', '0', '0', '0', '0', '0', '0', '0'])) = (0x12, 0)
      ∧ word .c2id (holding (text ['0', '0', '0', '0', '0', '0', '0'])) = (0x12, 0)
      ∧ word .c2id (holding (text ['0', '0', '0', '0', '0', '0', '0', '0', '0'])) = (0x12, 0) := by decide

/-! ### The host port (95_test_vectors.md section 2.6) -/

/-- H1. -/
theorem test_reset_reads :
    State.reset.readValue 0x01 = 0 ∧ State.reset.readValue 0x06 = 64 ∧ State.reset.readValue 0x05 = 0 := by decide

/-- H3: BAD_CMD comes before BAD_LEN. -/
theorem test_bad_cmd_first : (wr (wr State.reset 0x02 200) 0x00 0xFF).statusByte = 0x22 := by decide

/-- H5 and H6, at IN_LEN = 65; H7 and H8 are accepted. -/
theorem test_bad_len :
    (wr (wr State.reset 0x02 65) 0x00 0x00).statusByte = 0x32 ∧ (wr (wr State.reset 0x02 65) 0x00 0x03).statusByte = 0x32
      ∧ (wr (wr State.reset 0x02 64) 0x00 0x03).statusByte = 0x01
      ∧ (wr (wr State.reset 0x02 65) 0x00 0x02).statusByte = 0x01 := by decide

/-- H9 and H10: only the low 8 bits are stored. -/
theorem test_low_bits_stored :
    (wr State.reset 0x02 0x1FF).readValue 0x02 = 0xFF ∧ (wr State.reset 0x40 0x141).readValue 0x40 = 0x41 := by decide

/-- H11 to H13: reserved and read-only numbers. -/
theorem test_ignored_writes :
    (wr State.reset 0x07 5).readValue 0x07 = 0 ∧ (wr State.reset 0x01 0xFF).readValue 0x01 = 0
      ∧ (wr State.reset 0x05 5).readValue 0x05 = 0 := by decide

/-- H15 and H16: L_IN = 18. -/
theorem test_capacity_18 :
    (wr (State.resetWith 18) 0x52 0x41).readValue 0x52 = 0
      ∧ (wr (wr (State.resetWith 18) 0x02 19) 0x00 0x00).statusByte = 0x32 := by decide

/-- H22, and programs P4 and P5: BUSY reads 0x01, a write while BUSY is dropped, Reset abandons the command. -/
theorem test_busy :
    (wr State.reset 0x00 0x00).readValue 0x01 = 0x01 ∧ (wr (wr State.reset 0x00 0x02) 0x04 2).pidIn = 0
      ∧ ((wr State.reset 0x00 0x03).hostOp .reset) = State.reset := by decide

/-! ### Witnesses: encoding, tables, numerals -/

theorem witness_CmdByteDecodesByOpOrIsReserved :
    (0x03#8 &&& 0xFC = 0 ∧ 0x03#8 &&& 0x03 = 3 ∧ decodeByte 0x03 = .ok .c2id)
      ∧ (0x02#8 &&& 0xFC = 0 ∧ 0x02#8 &&& 0x03 = 2) ∧ (0x01#8 &&& 0xFC = 0 ∧ 0x01#8 &&& 0x03 = 1)
      ∧ (0x00#8 &&& 0xFC = 0 ∧ 0x00#8 &&& 0x03 = 0) ∧ 0x04#8 &&& 0xFC ≠ 0 ∧ 0xFF#8 &&& 0xFC ≠ 0 := by decide

theorem witness_DecodeAndEncodeAgree :
    Instr.wellFormed .c2id = true ∧ decode (encode .c2id :: [0x55]) = .ok (.c2id, [0x55])
      ∧ decodeByte 0x03 = .ok .c2id := by decide

/-- 30_encoding.md R80, where the ranges meet. -/
theorem witness_AlphabetInClosedForm :
    alpha 0 = 0x30 ∧ alpha 9 = 0x39 ∧ alpha 10 = 0x41 ∧ alpha 35 = 0x5A ∧ alpha 36 = 0x61 ∧ alpha 61 = 0x7A
      ∧ alpha 62 = 0x2D ∧ alpha 63 = 0x5F := by decide

theorem witness_AlphabetAndInverseAgree :
    alphaInv 0x5F = some 63 ∧ alphaInv 0x30 = some 0 ∧ alphaInv 0x21 = none ∧ 0x21#8 ∉ alphabet := by decide

theorem witness_NumeralsAreShortest :
    (text ['0', '7'] ≠ [] ∧ (∀ b ∈ text ['0', '7'], isDecDigit b = true) ∧ decValue (text ['0', '7']) = 7)
      ∧ (text ['0', 'a'] ≠ [] ∧ (∀ b ∈ text ['0', 'a'], isHexDigit b = true) ∧ hexValue (text ['0', 'a']) = 10)
      ∧ decNumeral 0 = text ['0'] ∧ hexNumeral 0 = text ['0'] ∧ decNumeral 10 = text ['1', '0']
      ∧ hexNumeral 0xDC = text ['D', 'C'] := by decide

/-- 41_filename_codec.md R131: the fourth segment keeps its dots. -/
theorem witness_SplitAtTheFirstThreeDots :
    splitN (text ['M', '.', '1', '.', 'A', '.', 'F', '.', 'F'])
        = [text ['M'], text ['1'], text ['A'], text ['F', '.', 'F']]
      ∧ splitN [] = [[]] ∧ splitN [dot] = [[], []] := by decide

/-! ### Witnesses: the filename codec -/

/-- "M.1.A": class M, the least timestamp, no sequence. -/
theorem witness_F2idPacksTheFilename_least :
    ((0#4 = 0 ∧ letterM = letterM ∨ 0#4 = 1 ∧ letterM = letterG) ∧ text ['1'] ≠ []
        ∧ (∀ b ∈ text ['1'], isDecDigit b = true) ∧ 1 ≤ decValue (text ['1']) ∧ decValue (text ['1']) ≤ 0xFFFFFFFF
        ∧ (∀ b ∈ text [], isHexDigit b = true) ∧ hexValue (text []) ≤ 0xFFF
        ∧ (text [] = [dot] ++ text [] ∨ text [] = [] ∧ text [] = []))
      ∧ (holding (text ['M', '.', '1', '.', 'A'])).inLen.toNat ≤ (holding (text ['M', '.', '1', '.', 'A'])).lIn
      ∧ (holding (text ['M', '.', '1', '.', 'A'])).stringOperand
          = [letterM, dot] ++ text ['1'] ++ [dot, letterA] ++ text [] := by decide

/-- "G.4294967295.A.FFF": class G, both fields at their maximum. -/
theorem witness_F2idPacksTheFilename_greatest :
    ((1#4 = 0 ∧ letterG = letterM ∨ 1#4 = 1 ∧ letterG = letterG)
        ∧ (∀ b ∈ text ['4', '2', '9', '4', '9', '6', '7', '2', '9', '5'], isDecDigit b = true)
        ∧ decValue (text ['4', '2', '9', '4', '9', '6', '7', '2', '9', '5']) = 0xFFFFFFFF
        ∧ (∀ b ∈ text ['F', 'F', 'F'], isHexDigit b = true) ∧ hexValue (text ['F', 'F', 'F']) = 0xFFF)
      ∧ (holding longName).inLen.toNat ≤ (holding longName).lIn
      ∧ (holding longName).stringOperand
          = [letterG, dot] ++ text ['4', '2', '9', '4', '9', '6', '7', '2', '9', '5'] ++ [dot, letterA]
            ++ ([dot] ++ text ['F', 'F', 'F']) := by decide

/-- "M.1.A.F" followed by nothing else is a filename: the language is not empty. -/
theorem witness_FilenameLanguageIsAccepted : IsFilename (text ['M', '.', '1', '.', 'A', '.', 'F']) :=
  ⟨letterM, text ['1'], .inl rfl, by decide, by decide, by decide, by decide,
    .inr ⟨text ['F'], by decide, by decide, by decide⟩⟩

/-- The empty string is no filename. -/
theorem witness_F2idRefusesWhatIsNoFilename :
    State.reset.inLen.toNat ≤ State.reset.lIn ∧ ¬ IsFilename State.reset.stringOperand := by
  refine ⟨by decide, ?_⟩
  rintro ⟨c, ts, -, -, -, -, -, h | ⟨q, -, -, h⟩⟩ <;> exact absurd h (by simp [State.stringOperand, State.reset, State.resetWith])

/-- "M.1" has one dot; "M.1.A" has two. -/
theorem witness_ThreeSegmentsAreEnough :
    (text ['M', '.', '1']).count dot < 2 ∧ f2id (text ['M', '.', '1']) = (0, false)
      ∧ (0#4 = 0 ∧ letterM = letterM) ∧ text ['1'] ≠ [] ∧ (∀ b ∈ text ['1'], isDecDigit b = true)
      ∧ 1 ≤ decValue (text ['1']) ∧ decValue (text ['1']) ≤ 0xFFFFFFFF
      ∧ f2id (text ['M', '.', '1', '.', 'A']) = (0x1000, true) := by decide

/-- Section 2.2: "M.0005.A.00DC" and "M.5.A.DC"; "M.000.A.". -/
theorem witness_LeadingZerosDoNotCount :
    text ['5'] ≠ [] ∧ (∀ b ∈ text ['5'], isDecDigit b = true) ∧ (∀ b ∈ text ['D', 'C'], isHexDigit b = true)
      ∧ f2id (text ['M', '.', '0', '0', '0', '5', '.', 'A', '.', '0', '0', 'D', 'C']) = (0x50DC, true)
      ∧ f2id (text ['M', '.', '5', '.', 'A', '.', 'D', 'C']) = (0x50DC, true)
      ∧ f2id (text ['M', '.', '0', '0', '0', '.', 'A', '.']) = (0, false) := by decide

theorem witness_F2idResultIsValidOrZero :
    (f2id (text ['M', '.', '1', '.', 'A'])).2 = true ∧ (f2id (text ['M', '.', '1', '.', 'A'])).1 = 0x1000
      ∧ (f2id longName).2 = true ∧ (f2id longName).1 = 0x1FFFFFFFFFFF
      ∧ (f2id (text ['X', '.', '1', '.', 'A', '.'])).2 = false := by decide

/-- W13, W14: classes 0, 1, 2 and 15. -/
theorem witness_Id2fFailsOnTheClassAlone :
    pidClass 0x1000 = 0 ∧ pidClass 0x100000001000 = 1 ∧ 2 ≤ (pidClass 0x200000001000).toNat
      ∧ 2 ≤ (pidClass 0xF00000001000).toNat ∧ (id2f 0x200000001000).2 = false
      ∧ (id2f 0xF00000001000).2 = false ∧ (id2f 0x1000).2 = true := by decide

/-- Section 2.3: the shortest rendering, "M.0.A.0", and the longest. -/
theorem witness_Id2fRendersTheFilename :
    pidClass (withPid 0).pidIn = 0
      ∧ [letterM, dot] ++ decNumeral (pidTimestamp (withPid 0).pidIn).toNat ++ [dot, letterA, dot]
          ++ hexNumeral (pidSequence (withPid 0).pidIn).toNat = text ['M', '.', '0', '.', 'A', '.', '0']
      ∧ pidClass (withPid 0x1FFFFFFFFFFF).pidIn = 1
      ∧ [letterG, dot] ++ decNumeral (pidTimestamp (withPid 0x1FFFFFFFFFFF).pidIn).toNat ++ [dot, letterA, dot]
          ++ hexNumeral (pidSequence (withPid 0x1FFFFFFFFFFF).pidIn).toNat = longName
      ∧ longName.length = 18 := by decide

theorem witness_Id2fRefusesOtherClasses :
    2 ≤ (pidClass (withPid 0x200000000000).pidIn).toNat ∧ 2 ≤ (pidClass (withPid 0xF00000000000).pidIn).toNat := by
  decide

theorem witness_ParseAfterFormat :
    ((pidClass 0x100000001ABC).toNat ≤ 1 ∧ pidTimestamp 0x100000001ABC ≠ 0)
      ∧ ((pidClass 0xABC).toNat ≤ 1 ∧ pidTimestamp 0xABC = 0 ∧ f2id (id2f 0xABC).1 = (0, false))
      ∧ 2 ≤ (pidClass 0x200000001000).toNat := by decide

/-- W2: "M.123456789.A.0DC" is accepted and not canonical. -/
theorem witness_FormatAfterParse :
    f2id (text ['M', '.', '5', '.', 'A', '.', '0', 'D', 'C']) = (0x50DC, true)
      ∧ canonFilename (text ['M', '.', '5', '.', 'A', '.', '0', 'D', 'C'])
          = text ['M', '.', '5', '.', 'A', '.', 'D', 'C']
      ∧ (id2f 0x50DC).1 = text ['M', '.', '5', '.', 'A', '.', 'D', 'C'] := by decide

theorem witness_CanonicalFilenamesAreTheRenderings :
    (f2id longName).2 = true ∧ canonFilename longName = longName ∧ longName = (id2f 0x1FFFFFFFFFFF).1
      ∧ (pidClass 0x1FFFFFFFFFFF).toNat ≤ 1 ∧ pidTimestamp 0x1FFFFFFFFFFF ≠ 0 := by decide

/-! ### Witnesses: the compact codec -/

theorem witness_Id2cIsPaddedToEightAndNeverFails :
    (0#64).toNat < 64 ^ 0 ∧ (0x3F#64).toNat < 64 ^ 1 ∧ (0xFFFFFFFFFFFF#64).toNat < 64 ^ 8
      ∧ (id2c 0x3F).1.take 7 = List.replicate 7 0x30 := by decide

theorem witness_C2idReadsTheValue :
    (holding (text ['_', '_', '_', '_', '_', '_', '_', '_'])).inLen.toNat
        ≤ (holding (text ['_', '_', '_', '_', '_', '_', '_', '_'])).lIn
      ∧ (holding (text ['_', '_', '_', '_', '_', '_', '_', '_'])).stringOperand.length = 8
      ∧ (∀ b ∈ (holding (text ['_', '_', '_', '_', '_', '_', '_', '_'])).stringOperand, alphaInv b ≠ none)
      ∧ codeValue (text ['_', '_', '_', '_', '_', '_', '_', '_']) = 0xFFFFFFFFFFFF := by decide

/-- The wrong lengths 0, 7 and 9, and a foreign byte at the last position. -/
theorem witness_C2idRefusesWhatIsNoCode :
    (holding (text ['0', '0', '0', '0', '0', '0', '0'])).stringOperand.length ≠ 8
      ∧ (holding (text ['0', '0', '0', '0', '0', '0', '0', '0', '0'])).stringOperand.length ≠ 8
      ∧ State.reset.stringOperand.length ≠ 8
      ∧ (holding (text ['0', '0', '0', '0', '0', '0', '0', '!'])).inLen.toNat
          ≤ (holding (text ['0', '0', '0', '0', '0', '0', '0', '!'])).lIn
      ∧ ∃ b ∈ (holding (text ['0', '0', '0', '0', '0', '0', '0', '!'])).stringOperand, alphaInv b = none := by decide

theorem witness_CodeOfTheDecodedPidIsTheCode :
    (text ['0', '7', 'M', 'y', 'q', 'L', '3', 'S']).length = 8
      ∧ (∀ b ∈ text ['0', '7', 'M', 'y', 'q', 'L', '3', 'S'], alphaInv b ≠ none)
      ∧ c2id (text ['0', '7', 'M', 'y', 'q', 'L', '3', 'S']) = (0x75BCD150DC, true) := by decide

theorem witness_FirstSymbolGivesTheClass :
    (validPid 0xFFFFFFFFFFF = true ∧ pidClass 0xFFFFFFFFFFF = 0 ∧ (id2c 0xFFFFFFFFFFF).1.head? = some 0x33)
      ∧ (validPid 0x100000001000 = true ∧ pidClass 0x100000001000 = 1
        ∧ (id2c 0x100000001000).1.head? = some 0x34) := by decide

/-! ### Witnesses: completion and steps -/

theorem witness_WordCommandsWriteBack :
    (f2id State.reset.stringOperand).2 = false ∧ (c2id State.reset.stringOperand).2 = false
      ∧ (f2id (holding longName).stringOperand).2 = true := by decide

theorem witness_StringCommandsWriteBack :
    (id2f (withPid 0x200000000000).pidIn).2 = false ∧ (id2f (withPid 0).pidIn).2 = true
      ∧ (id2c (withPid 0).pidIn).2 = true := by decide

/-- The engine's turn in a busy state, for each OP, and in an idle state whose schedule names the engine. -/
theorem witness_EngineStepRunsTheAcceptedCommand :
    (State.reset.accept 0).nextAgent = .engine ∧ (State.reset.accept 0).phase = .busy
      ∧ (State.reset.accept 1).nextAgent = .engine ∧ (State.reset.accept 2).nextAgent = .engine
      ∧ (State.reset.accept 3).nextAgent = .engine ∧ (State.reset.accept 3).lop = 3
      ∧ State.nextAgent { State.reset with schedule := [.engine] } = .engine := by decide

/-- 95_test_vectors.md, H21: F2ID of the empty string ends with STATUS 0x12. -/
theorem test_complete_f2id : (after (step (wr State.reset 0x00 0x00))).statusByte = 0x12 := by decide

theorem witness_PlacedCommandIsRunByTheNextStep :
    decodeTableWord 8 0 = some .f2id ∧ decodeTableWord 8 3 = some .c2id
      ∧ (State.reset.withFetchWord 8 3).phase = .busy ∧ (State.reset.withFetchWord 8 3).lop = 3 := by decide

theorem witness_HostStepIssuesTheNextOperation :
    State.nextAgent { State.reset with host := [.reset] } = .host ∧ State.reset.nextAgent = .host
      ∧ State.reset.host = [] ∧ State.nextAgent { State.reset.accept 0 with schedule := [.host] } = .host := by decide

theorem witness_WritesWhileBusyAreDropped :
    (State.reset.accept 0).phase = .busy ∧ wr (State.reset.accept 0) 0x00 0x04 = State.reset.accept 0
      ∧ wr (State.reset.accept 0) 0x04 1 = State.reset.accept 0 := by decide

/-- Idle, at the ends of both windows; and busy, for a register that is no result. -/
theorem witness_HostReadReturnsTheStoredValue :
    State.reset.phase = .idle ∧ CapacityLegal State.reset ∧ (holding longName).readValue 0x40 = 0x47
      ∧ (wr State.reset 0x7F 0x41).readValue 0x7F = 0x41 ∧ State.readValue { State.reset with outLen := 18 } 0x03 = 18
      ∧ (after (exec .id2f (withPid 0x1FFFFFFFFFFF))).readValue 0x80 = 0x47
      ∧ (after (exec .id2f (withPid 0x1FFFFFFFFFFF))).readValue 0x91 = 0x46
      ∧ ((0x02#8 ≠ 0x03 ∧ 0x02#8 ≠ 0x05 ∧ ¬ (0x80 ≤ (0x02#8).toNat ∧ (0x02#8).toNat ≤ 0x91))
        ∧ CapacityLegal (State.reset.accept 0) ∧ (State.reset.accept 0).phase = .busy) := by decide

/-- Which reads draw a free value while BUSY: PID_OUT, OUT_LEN and the two ends of OUT_BUF, and not their neighbours. -/
theorem witness_ResultReadWhileBusyIsUnspecified :
    (State.reset.accept 0).phase = .busy ∧ CapacityLegal (State.reset.accept 0)
      ∧ ((State.reset.accept 0).hostRead 0x05).draws = 1 ∧ ((State.reset.accept 0).hostRead 0x03).draws = 1
      ∧ ((State.reset.accept 0).hostRead 0x80).draws = 1 ∧ ((State.reset.accept 0).hostRead 0x91).draws = 1
      ∧ ((State.reset.accept 0).hostRead 0x92).draws = 0 ∧ ((State.reset.accept 0).hostRead 0x7F).draws = 0
      ∧ ((State.reset.accept 0).hostRead 0x04).draws = 0 := by decide

/-- The ends of IN_BUF for L_IN = 64 and L_IN = 18, IN_LEN and PID_IN. -/
theorem witness_OperandWriteIsReadBack :
    State.reset.phase = .idle ∧ CapacityLegal State.reset ∧ CapacityLegal (State.resetWith 18)
      ∧ (0x40 ≤ (0x7F#8).toNat ∧ (0x7F#8).toNat < 0x40 + State.reset.lIn)
      ∧ (0x40 ≤ (0x51#8).toNat ∧ (0x51#8).toNat < 0x40 + (State.resetWith 18).lIn)
      ∧ (wr (State.resetWith 18) 0x51 0x141).readValue 0x51 = 0x41
      ∧ (wr State.reset 0x40 0x41).readValue 0x41 = 0 ∧ (wr State.reset 0x02 0x107).readValue 0x02 = 7
      ∧ (wr State.reset 0x04 0xFFFF000000000001).readValue 0x04 = 0xFFFF000000000001 := by decide

/-- Both ends of the three reserved ranges (L_IN = 18); with L_IN = 64 the middle one is empty. -/
theorem witness_ReservedNumbersReadZeroAndIgnoreWrites :
    CapacityLegal (State.resetWith 18) ∧ (State.resetWith 18).lIn = 18 ∧ State.reset.lIn = 64
      ∧ ∀ r ∈ [0x07#8, 0x3F, 0x52, 0x7F, 0x92, 0xFF],
          (0x07 ≤ r.toNat ∧ r.toNat ≤ 0x3F ∨ 0x40 + 18 ≤ r.toNat ∧ r.toNat ≤ 0x7F ∨ 0x92 ≤ r.toNat)
            ∧ wr (State.resetWith 18) r 5 = State.resetWith 18 ∧ (State.resetWith 18).readValue r = 0 := by decide

/-- "M.0.A.0" is read as OUT_LEN and 7 bytes; an empty result as OUT_LEN alone. -/
theorem witness_GetsReadsTheOutputString :
    (after (exec .id2f State.reset)).phase = .idle ∧ ResultsLegal (after (exec .id2f State.reset))
      ∧ ((after (exec .id2f State.reset)).hostOp .gets).host.length = 7
      ∧ ResultsLegal State.reset ∧ (State.reset.hostOp .gets).host = [] := by decide

/-- The longest string that fits and the empty one. -/
theorem witness_PutsPresentsTheString :
    State.reset.phase = .idle ∧ State.reset.schedule = [] ∧ CapacityLegal State.reset
      ∧ (List.replicate 64 dot).length ≤ State.reset.lIn ∧ (putsOps (List.replicate 64 dot)).length = 65
      ∧ putsOps [] = [.write 0x02 0] ∧ putsOps [dot] = [.write 0x40 0x2E, .write 0x02 1]
      ∧ State.host { State.reset with host := putsOps [dot] ++ [.wait] } = putsOps [dot] ++ [.wait] := by decide

/-! ### Witnesses: whole-machine rules -/

theorem witness_step_from_reset : step State.reset = .next State.reset := rfl

/-- A busy state with the longest operand a string command may have. -/
theorem witness_step_from_busy :
    step (wr (wr State.reset 0x02 64) 0x00 0x03)
      = .next ((wr State.reset 0x02 64).cmdWrite 0x03 |>.wbWord 0 false |>.finish) := rfl

theorem witness_ResultsHoldUntilTheNextCommand :
    (∀ (op : HostOp) (rest : List HostOp), [HostOp.write 0x02 7] = op :: rest →
        op ≠ .reset ∧ ∀ d, op ≠ .write 0x00 d)
      ∧ step { State.reset with host := [.write 0x02 7] } = .next { State.reset with inLen := 7 } := by
  refine ⟨?_, rfl⟩
  rintro op rest ⟨⟩
  exact ⟨by decide, fun d h => absurd (HostOp.write.inj h).1 (by decide)⟩

/-- The host's write of PID_IN before the engine's turn is dropped. -/
theorem witness_OperandsAreStableWhileBusy :
    (State.reset.accept 2).phase = .busy
      ∧ step { State.reset.accept 2 with host := [.write 0x04 2], schedule := [.host] }
          = .next (State.reset.accept 2) := ⟨rfl, rfl⟩

theorem witness_EveryAcceptedCommandEndsWithItsResults :
    State.phase { State.reset.accept 2 with host := [.write 0x04 2, .wait], schedule := [.host, .engine] } = .busy
      ∧ HostOp.reset ∉ [HostOp.write 0x04 2, .wait] := by decide

theorem witness_EndedProgramIsQuiescent : ProgramEnded State.reset ∧ State.reset.schedule = [] := by decide

theorem witness_ParamIsConstant :
    step State.reset = .next State.reset ∧ CapacityLegal State.reset ∧ State.reset.readValue 0x06 = 64 :=
  ⟨rfl, by decide, by decide⟩

/-- The six bytes of 10_state.md R28, each read in a state that meets the invariant. -/
theorem witness_StatusReadsOneOfSixBytes :
    (∀ s ∈ [State.reset, State.reset.accept 0, after (exec .id2c State.reset), after (exec .f2id State.reset),
        wr State.reset 0x00 0x04, wr (wr State.reset 0x02 65) 0x00 0x00], StatusLegal s)
      ∧ [State.reset, State.reset.accept 0, after (exec .id2c State.reset), after (exec .f2id State.reset),
        wr State.reset 0x00 0x04, wr (wr State.reset 0x02 65) 0x00 0x00].map State.statusByte = statusBytes := by decide

/-- The premises of the four invariants are met by a busy state (its step: `witness_step_from_busy`) and by reset. -/
theorem witness_EveryStepKeepsStatusLegal :
    StatusLegal State.reset ∧ StatusLegal (wr (wr State.reset 0x02 64) 0x00 0x03) := by decide

theorem witness_EveryStepKeepsResultsLegal :
    ResultsLegal State.reset ∧ ResultsLegal (wr (wr State.reset 0x02 64) 0x00 0x03)
      ∧ ResultsLegal (after (exec .id2f (withPid 0x1FFFFFFFFFFF))) := by decide

theorem witness_EveryStepKeepsOperandLegal :
    OperandLegal (wr (wr State.reset 0x02 64) 0x00 0x03) ∧ (wr (wr State.reset 0x02 64) 0x00 0x03).phase = .busy
      ∧ readsString (instrOfOp (wr (wr State.reset 0x02 64) 0x00 0x03).lop) = true := by decide

theorem witness_EveryStepKeepsSentinelLegal :
    SentinelLegal (wr State.reset 0x00 0x04) ∧ (wr State.reset 0x00 0x04).done = true
      ∧ (wr State.reset 0x00 0x04).ok = false := by decide

theorem witness_ResetStateIsLegal : lInLegal 18 = true ∧ lInLegal 64 = true := by decide

theorem witness_ReadsAfterReset :
    lInLegal 18 = true ∧ (State.resetWith 18).readValue 0x06 = 18 ∧ (State.resetWith 18).readValue 0x40 = 0
      ∧ (State.resetWith 18).readValue 0xFF = 0 := by decide

end Sys2Proof.Tests
end

section
/-! PROOF. PARAM (10_state.md R33): what each operation leaves of IN_BUF's length, which is L_IN, and what a read and a
write of PARAM's register number do. -/

namespace Sys2Proof.Machine

/-! ### L_IN under every operation -/

theorem State.lIn_congr {s t : State} (h : t.inBuf = s.inBuf) : t.lIn = s.lIn := congrArg List.length h

@[simp] theorem State.cmdWrite_inBuf (s : State) (c : Byte) : (s.cmdWrite c).inBuf = s.inBuf := by
  rcases s.cmdWrite_cases c with ⟨-, h⟩ | ⟨-, -, -, h⟩ | ⟨-, -, h⟩
  · rw [h, State.reject_inBuf]
  · rw [h, State.reject_inBuf]
  · rw [h, State.accept_inBuf]

/-- Of the host writes only one into the IN_BUF window touches IN_BUF, and it replaces a byte in place. -/
@[simp] theorem State.hostWrite_lIn (s : State) (r : RegNum) (d : Word) : (s.hostWrite r d).lIn = s.lIn := by
  rcases s.hostWrite_cases r d with h | ⟨-, -, h⟩ | ⟨-, h⟩ | ⟨-, h⟩ | ⟨-, i, h⟩
  · rw [h]
  · exact State.lIn_congr (by rw [h, State.cmdWrite_inBuf])
  · exact State.lIn_congr (by rw [h])
  · exact State.lIn_congr (by rw [h])
  · rw [h]; exact List.length_set

/-- Reset clears the bytes of IN_BUF and keeps how many there are. -/
@[simp] theorem State.blockReset_lIn (s : State) : s.blockReset.lIn = s.lIn := List.length_replicate

@[simp] theorem State.hostOp_lIn (s : State) (op : HostOp) : (s.hostOp op).lIn = s.lIn := by
  rcases s.hostOp_cases op with ⟨r, d, -, h⟩ | ⟨-, h⟩ | ⟨hs, rs, n, h⟩
  · rw [h, State.hostWrite_lIn]
  · rw [h, State.blockReset_lIn]
  · exact State.lIn_congr (by rw [h])

/-- A command writes back to result registers only. -/
theorem exec_inBuf {i : Instr} {s t : State} (h : exec i s = .next t) : t.inBuf = s.inBuf := by
  rcases exec_cases i s with ⟨r, -, hx⟩ | ⟨r, -, -, hx⟩
  · obtain rfl := Host.Outcome.next.inj (hx.symm.trans h)
    rw [State.finish_inBuf, State.wbWord_inBuf]
  · obtain rfl := Host.Outcome.next.inj (hx.symm.trans h)
    rw [State.finish_inBuf, State.wbStr_inBuf]

theorem step_lIn {s t : State} (h : step s = .next t) : t.lIn = s.lIn := by
  rcases step_cases h with ⟨-, -, hx⟩ | ⟨-, -, rfl⟩ | ⟨-, -, rfl⟩ | ⟨op, rest, -, -, rfl⟩
  · exact State.lIn_congr (exec_inBuf hx :)
  · rfl
  · rfl
  · exact State.hostOp_lIn _ op

/-! ### The register number of PARAM -/

@[simp] theorem regOf_param (lIn : Nat) : regOf lIn paramNumber = .param := rfl

/-- PARAM is no result register, so that its read is never drawn, BUSY or IDLE. -/
@[simp] theorem State.readValue_param (s : State) : s.readValue paramNumber = BitVec.ofNat 64 s.lIn := by
  simp [State.readValue, State.readIsDrawn, isResultReg, State.storedValue]

/-- A write of PARAM is dropped while BUSY, and ignored while IDLE. -/
@[simp] theorem State.hostWrite_param (s : State) (d : Word) : s.hostWrite paramNumber d = s := by
  cases hp : s.phase with
  | busy => exact s.hostWrite_busy paramNumber d hp
  | idle => simp [State.hostWrite, hp]

/-- Settles O52: no operation changes IN_BUF's length, and a legal length fits in the word that a read of PARAM
returns. -/
theorem paramIsConstant : Obligations.ParamIsConstant := by
  refine ⟨fun _ _ => step_lIn, fun s => s.hostOp_lIn .reset, fun s hs => ?_, fun s d => s.hostWrite_param d⟩
  obtain ⟨hmin, hmax⟩ := (lInLegal_iff s.lIn).mp hs
  have hfits : s.lIn < 2 ^ 64 := by omega
  have hread : (s.readValue 0x06).toNat = s.lIn := by
    rw [show (0x06 : RegNum) = paramNumber from rfl, State.readValue_param, BitVec.toNat_ofNat, Nat.mod_eq_of_lt hfits]
  exact ⟨hread, hmin, hmax⟩

end Sys2Proof.Machine
end

section
/-! PROOF. CMD bytes (30_encoding.md R70 to R73): the two fields of a CMD byte as the masks 0x03 and 0xFC give them, and
what a byte decodes to by them. -/

namespace Sys2Proof

/-- The mask 0xFC leaves RSV in place and clears OP. -/
theorem and_rsvMask (c : Byte) : c &&& (0xFC : Byte) = (rsvField c).setWidth 8 <<< 2 := by
  ext i hi
  interval_cases i <;> simp [rsvField]

/-- The mask 0x03 leaves OP in place and clears RSV. -/
theorem and_opMask (c : Byte) : c &&& 0x03 = (opField c).setWidth 8 := by
  ext i hi
  interval_cases i <;> simp [opField]

theorem rsvField_eq_zero_iff (c : Byte) : rsvField c = 0 ↔ c &&& 0xFC = 0 := by
  have hshift : ∀ r : BitVec 6, r = 0 ↔ r.setWidth 8 <<< 2 = 0 := by decide
  rw [and_rsvMask]
  exact hshift (rsvField c)

theorem opField_eq_iff (c : Byte) (op : BitVec 2) : opField c = op ↔ c &&& 0x03 = op.setWidth 8 := by
  have hinj : ∀ o o' : BitVec 2, o = o' ↔ o.setWidth 8 = o'.setWidth 8 := by decide
  rw [and_opMask]
  exact hinj (opField c) op

theorem decodeByte_of_rsv_zero {c : Byte} {op : BitVec 2} (hrsv : c &&& 0xFC = 0) (hop : c &&& 0x03 = op.setWidth 8) :
    decodeByte c = .ok (instrOfOp op) := by
  rw [decodeByte, if_pos ((rsvField_eq_zero_iff c).mpr hrsv), (opField_eq_iff c op).mpr hop]

theorem decodeByte_of_rsv_ne_zero {c : Byte} (hrsv : c &&& 0xFC ≠ 0) : decodeByte c = .error (.reservedCommand c) :=
  if_neg fun h => hrsv ((rsvField_eq_zero_iff c).mp h)

/-- Settles O1: the masks read the fields RSV and OP, by which the decoder goes. -/
theorem cmdByteDecodesByOpOrIsReserved : Obligations.CmdByteDecodesByOpOrIsReserved := by
  refine fun c => ⟨fun hrsv => ?_, decodeByte_of_rsv_ne_zero⟩
  exact ⟨decodeByte_of_rsv_zero (op := 0) hrsv, decodeByte_of_rsv_zero (op := 1) hrsv,
    decodeByte_of_rsv_zero (op := 2) hrsv, decodeByte_of_rsv_zero (op := 3) hrsv⟩

end Sys2Proof
end

section
/-! PROOF. The language of filenames (30_encoding.md R83): a split string is its segments joined by dots, so that the
parser's answer is a statement about the string. -/

namespace Sys2Proof.Machine

/-! ### Splitting and joining -/

/-- Joining the segments by dots gives the string back, at whatever number of dots the split stops. -/
theorem intercalate_splitDots (k : Nat) (s : List Byte) : [dot].intercalate (splitDots k s) = s := by
  induction s generalizing k with
  | nil => simp
  | cons b s ih =>
    cases k with
    | zero => simp
    | succ k =>
      rw [splitDots_cons]
      split_ifs with hb
      · rw [List.intercalate_cons_of_ne_nil (splitDots_ne_nil k s), ih, hb]; rfl
      · have hs := ih (k + 1)
        cases hsplit : splitDots (k + 1) s with
        | nil => exact absurd hsplit (splitDots_ne_nil (k + 1) s)
        | cons g gs =>
          rw [hsplit] at hs
          cases gs with
          | nil => simpa using hs
          | cons g' gs => simpa using hs

/-- Three segments without a dot are what the string that joins them splits into. -/
theorem splitN_join_three {a b c : List Byte} (ha : dot ∉ a) (hb : dot ∉ b) (hc : dot ∉ c) :
    splitN (a ++ dot :: (b ++ dot :: c)) = [a, b, c] := by
  rw [splitN, splitDots_append_dot _ _ _ ha, splitDots_append_dot _ _ _ hb, splitDots_of_no_dot _ _ hc]

/-- The fourth segment may hold dots. -/
theorem splitN_join_four {a b c : List Byte} (ha : dot ∉ a) (hb : dot ∉ b) (hc : dot ∉ c) (d : List Byte) :
    splitN (a ++ dot :: (b ++ dot :: (c ++ dot :: d))) = [a, b, c, d] := by
  rw [splitN, splitDots_append_dot _ _ _ ha, splitDots_append_dot _ _ _ hb, splitDots_append_dot _ _ _ hc,
    splitDots_zero]

/-! ### The parser on the string -/

/-- Of the segments that pass the parser's checks, the first three hold no dot. -/
theorem dot_notMem_of_parseSegments {a b c d : List Byte} {p : Word} (h : parseSegments a b c d = some p) :
    dot ∉ a ∧ dot ∉ b ∧ dot ∉ c := by
  obtain ⟨cls, ts, seq, hcls, hts, rfl, -, -⟩ := parseSegments_eq_some.mp h
  obtain ⟨-, hdigits, -⟩ := parseTimestamp_eq_some.mp hts
  refine ⟨?_, fun hdot => absurd (hdigits dot hdot) (by decide), by decide⟩
  rcases parseClass_eq_some.mp hcls with ⟨rfl, -⟩ | ⟨rfl, -⟩ <;> decide

/-- The parser answers by the segments of a string that three or four of them make up; a missing fourth counts as empty
(41_filename_codec.md R132, R136). -/
theorem parseFilename_eq_some {s : List Byte} {p : Word} :
    parseFilename s = some p ↔
      ∃ a b c d, parseSegments a b c d = some p
        ∧ (s = a ++ dot :: (b ++ dot :: c) ∧ d = [] ∨ s = a ++ dot :: (b ++ dot :: (c ++ dot :: d))) := by
  constructor
  · intro h
    have hjoin : [dot].intercalate (splitN s) = s := intercalate_splitDots 3 s
    unfold parseFilename at h
    split at h
    case h_1 a b c hsplit =>
      rw [hsplit] at hjoin
      exact ⟨a, b, c, [], h, .inl ⟨by simpa using hjoin.symm, rfl⟩⟩
    case h_2 a b c d hsplit =>
      rw [hsplit] at hjoin
      exact ⟨a, b, c, d, h, .inr (by simpa using hjoin.symm)⟩
    case h_3 => cases h
  · rintro ⟨a, b, c, d, h, hs⟩
    obtain ⟨ha, hb, hc⟩ := dot_notMem_of_parseSegments h
    rcases hs with ⟨rfl, rfl⟩ | rfl
    · rw [parseFilename, splitN_join_three ha hb hc]; exact h
    · rw [parseFilename, splitN_join_four ha hb hc]; exact h

/-- F2ID succeeds exactly when the parser answers with a PID. -/
theorem f2id_ok_iff (s : List Byte) : (f2id s).2 = true ↔ ∃ p, parseFilename s = some p := by
  cases h : parseFilename s with
  | none => simp [f2id_of_none h]
  | some p => simp [f2id_of_some h]

/-! ### The parser and the grammar -/

/-- The checks of the four segments (41_filename_codec.md R133 to R136), whatever the PID they give. -/
theorem exists_parseSegments_iff {a b c d : List Byte} :
    (∃ p, parseSegments a b c d = some p) ↔
      (a = [letterM] ∨ a = [letterG])
        ∧ (b ≠ [] ∧ (∀ x ∈ b, isDecDigit x = true) ∧ 1 ≤ decValue b ∧ decValue b ≤ 0xFFFFFFFF)
        ∧ c = [letterA] ∧ (∀ x ∈ d, isHexDigit x = true) ∧ hexValue d ≤ 0xFFF := by
  simp only [parseSegments_eq_some]
  constructor
  · rintro ⟨p, cls, ts, seq, hcls, hts, hc, hseq, -⟩
    obtain ⟨hne, hdigits, hmin, hmax, -⟩ := parseTimestamp_eq_some.mp hts
    obtain ⟨hhex, hle, -⟩ := parseSequence_eq_some.mp hseq
    exact ⟨(parseClass_eq_some.mp hcls).imp And.left And.left, ⟨hne, hdigits, hmin, hmax⟩, hc, hhex, hle⟩
  · rintro ⟨ha, ⟨hne, hdigits, hmin, hmax⟩, hc, hhex, hle⟩
    obtain ⟨cls, hcls⟩ : ∃ cls, parseClass a = some cls := by
      rcases ha with ha | ha
      · exact ⟨0, parseClass_eq_some.mpr (.inl ⟨ha, rfl⟩)⟩
      · exact ⟨1, parseClass_eq_some.mpr (.inr ⟨ha, rfl⟩)⟩
    exact ⟨_, cls, _, _, hcls, parseTimestamp_eq_some.mpr ⟨hne, hdigits, hmin, hmax, rfl⟩, hc,
      parseSequence_eq_some.mpr ⟨hhex, hle, rfl⟩, rfl⟩

/-- Settles O10: the checks of the four segments are the grammar's value constraints, and a missing fourth segment is an
empty sequence. -/
theorem filenameLanguageIsAccepted : Obligations.FilenameLanguageIsAccepted := by
  intro s
  rw [f2id_ok_iff]
  constructor
  · rintro ⟨p, h⟩
    obtain ⟨a, ts, _, q, hsegs, hs⟩ := parseFilename_eq_some.mp h
    obtain ⟨ha, ⟨hne, hdigits, hmin, hmax⟩, rfl, hhex, hle⟩ := exists_parseSegments_iff.mp ⟨p, hsegs⟩
    obtain ⟨letter, hletter, rfl⟩ : ∃ letter, (letter = letterM ∨ letter = letterG) ∧ a = [letter] := by
      simpa [or_and_right, exists_or] using ha
    refine ⟨letter, ts, hletter, hne, hdigits, hmin, hmax, ?_⟩
    rcases hs with ⟨rfl, -⟩ | rfl
    · exact .inl (by simp)
    · exact .inr ⟨q, hhex, hle, by simp⟩
  · rintro ⟨letter, ts, hletter, hne, hdigits, hmin, hmax, hs⟩
    have haccept (q : List Byte) (hhex : ∀ b ∈ q, isHexDigit b = true) (hle : hexValue q ≤ 0xFFF) :
        ∃ p, parseSegments [letter] ts [letterA] q = some p :=
      exists_parseSegments_iff.mpr ⟨by simpa using hletter, ⟨hne, hdigits, hmin, hmax⟩, rfl, hhex, hle⟩
    rcases hs with rfl | ⟨q, hhex, hle, rfl⟩
    · obtain ⟨p, hsegs⟩ := haccept [] (by simp) (by simp [hexValue])
      exact ⟨p, parseFilename_eq_some.mpr ⟨_, _, _, _, hsegs, .inl ⟨by simp, rfl⟩⟩⟩
    · obtain ⟨p, hsegs⟩ := haccept q hhex hle
      exact ⟨p, parseFilename_eq_some.mpr ⟨_, _, _, _, hsegs, .inr (by simp)⟩⟩

end Sys2Proof.Machine
end

section
/-! PROOF. The write-back of a string result (40_host_interface.md R110): what ID2F and ID2C leave in every register. -/

namespace Sys2Proof.Machine

theorem causeOfOk_eq_ite (k : Bool) : causeOfOk k = if k = true then .none else .malformed := by
  cases k <;> rfl

/-- A string that fits in OUT_BUF, written back at the end of a command, as one update of the state. -/
theorem State.finish_wbStr (s : State) (t : List Byte) (k : Bool) (ht : t.length ≤ Config.outBufSize) :
    (s.wbStr t k).finish
      = { s with
          pidOut := 0, outLen := BitVec.ofNat 8 t.length, outBuf := t ++ List.replicate (Config.outBufSize - t.length) 0
          ok := k, cause := if k = true then .none else .malformed, phase := .idle, done := true } := by
  rw [← outBufHolding_of_le t ht, ← causeOfOk_eq_ite]
  rfl

theorem exec_id2f (s : State) : exec .id2f s = .next (s.wbStr (id2f s.pidIn).1 (id2f s.pidIn).2).finish := rfl

theorem exec_id2c (s : State) : exec .id2c s = .next (s.wbStr (id2c s.pidIn).1 (id2c s.pidIn).2).finish := rfl

/-- ID2F fails with the empty string (41_filename_codec.md R146). -/
theorem id2f_eq_nil_of_fails {p : Word} (h : (id2f p).2 = false) : (id2f p).1 = [] := by
  rcases id2f_cases p with ⟨c, -, hp⟩ | ⟨-, -, hp⟩
  · rw [hp] at h; cases h
  · rw [hp]

/-- ID2C never fails (42_compact_codec.md R173). -/
theorem id2c_ok (p : Word) : (id2c p).2 = true := rfl

theorem id2c_length_le (p : Word) : (id2c p).1.length ≤ Config.outBufSize := by
  rw [id2c_length]; decide

/-- Settles O31: both functions' strings fit in OUT_BUF, where a string that fits stands whole. -/
theorem stringCommandsWriteBack : Obligations.StringCommandsWriteBack := by
  rintro s i r (⟨rfl, rfl⟩ | ⟨rfl, rfl⟩)
  · have hlen := id2f_length_le s.pidIn
    exact ⟨hlen, id2f_eq_nil_of_fails, by rw [exec_id2f, State.finish_wbStr s _ _ hlen]; rfl⟩
  · have hlen := id2c_length_le s.pidIn
    have hfails : (id2c s.pidIn).2 = false → (id2c s.pidIn).1 = [] := by rw [id2c_ok]; exact nofun
    exact ⟨hlen, hfails, by rw [exec_id2c, State.finish_wbStr s _ _ hlen]; rfl⟩

end Sys2Proof.Machine
end

section
/-! PROOF. Host writes (40_host_interface.md R101 to R107): what a write of each register number does while IDLE, the
numbers that ignore it, and what the write of a CMD byte leaves. -/

namespace Sys2Proof.Machine

theorem Phase.eq_idle_of_ne_busy {p : Phase} (h : p ≠ .busy) : p = .idle := by
  cases p with
  | idle => rfl
  | busy => exact absurd rfl h

@[simp] theorem State.hostOp_write (s : State) (r : RegNum) (d : Word) :
    s.hostOp (.write r d) = s.hostWrite r d := rfl

/-! ### Writes while IDLE, by register -/

section
variable {s : State}

theorem State.hostWrite_cmd (hidle : s.phase = .idle) (d : Word) :
    s.hostWrite cmdNumber d = s.cmdWrite (d.setWidth 8) := by
  simp [State.hostWrite, hidle, regOf, cmdNumber]

theorem State.hostWrite_inLen (hidle : s.phase = .idle) (d : Word) :
    s.hostWrite inLenNumber d = { s with inLen := d.setWidth 8 } := by
  simp [State.hostWrite, hidle, regOf, inLenNumber]

theorem State.hostWrite_pidIn (hidle : s.phase = .idle) (d : Word) :
    s.hostWrite pidInNumber d = { s with pidIn := d } := by
  simp [State.hostWrite, hidle, regOf, pidInNumber]

theorem State.hostWrite_inBuf (hidle : s.phase = .idle) {r : RegNum} (hlo : 0x40 ≤ r.toNat)
    (hhi : r.toNat < 0x40 + s.lIn) (d : Word) :
    s.hostWrite r d = { s with inBuf := s.inBuf.set (r.toNat - 0x40) (d.setWidth 8) } := by
  simp [State.hostWrite, hidle, regOf_inBuf s.lIn r hlo hhi]

end

/-- A number of no operand register and not CMD's is read-only or reserved, and a write of it is ignored in every
phase. -/
theorem State.hostWrite_ignored (s : State) {r : RegNum} (d : Word) (hcmd : r ≠ 0x00) (hinLen : r ≠ 0x02)
    (hpidIn : r ≠ 0x04) (hinBuf : ¬ (0x40 ≤ r.toNat ∧ r.toNat < 0x40 + s.lIn)) : s.hostWrite r d = s := by
  cases hp : s.phase with
  | busy => exact s.hostWrite_busy r d hp
  | idle =>
    have hwindow : ¬ (inBufBase ≤ r.toNat ∧ r.toNat < inBufBase + s.lIn) := hinBuf
    simp only [State.hostWrite, hp, regOf, if_neg hcmd, if_neg hinLen, if_neg hpidIn, if_neg hwindow]
    split_ifs <;> rfl

/-- Settles O35: the phase is checked before the register number. -/
theorem writesWhileBusyAreDropped : Obligations.WritesWhileBusyAreDropped :=
  fun s r d hbusy => s.hostWrite_busy r d hbusy

/-- Settles O36: the numbers of CMD, IN_LEN, PID_IN and the IN_BUF window each have their write, and every other number
ignores it. -/
theorem hostWriteEffect : Obligations.HostWriteEffect := by
  intro s r d
  rw [State.hostOp_write, ← BitVec.setWidth_eq_extractLsb' (by decide)]
  by_cases hbusy : s.phase = .busy
  · rw [if_pos hbusy]; exact s.hostWrite_busy r d hbusy
  have hidle := Phase.eq_idle_of_ne_busy hbusy
  rw [if_neg hbusy]
  split_ifs with hcmd hinLen hpidIn hinBuf
  · subst hcmd; exact State.hostWrite_cmd hidle d
  · subst hinLen; exact State.hostWrite_inLen hidle d
  · subst hpidIn; exact State.hostWrite_pidIn hidle d
  · exact State.hostWrite_inBuf hidle hinBuf.1 hinBuf.2 d
  · exact s.hostWrite_ignored d hcmd hinLen hpidIn hinBuf

/-! ### The write of a CMD byte -/

/-- The OP values whose command takes the string operand (40_host_interface.md R106). -/
theorem readsString_instrOfOp_iff : ∀ op : BitVec 2, readsString (instrOfOp op) = true ↔ op = 0 ∨ op = 3 := by
  decide

/-- Settles O37: the three outcomes of a CMD write, by RSV and then by OP and IN_LEN. -/
theorem cmdWriteRejectsOrAccepts : Obligations.CmdWriteRejectsOrAccepts := by
  intro s c
  rw [← rsvField, ← opField]
  have hstring := readsString_instrOfOp_iff (opField c)
  rcases s.cmdWrite_cases c with ⟨hrsv, h⟩ | ⟨hrsv, hreads, hlong, h⟩ | ⟨hrsv, hfits, h⟩
  · rw [h, if_pos hrsv]; rfl
  · rw [h, if_neg (not_not_intro hrsv), if_pos ⟨hstring.mp hreads, hlong⟩]; rfl
  · have hok : ¬ ((opField c = 0 ∨ opField c = 3) ∧ s.lIn < s.inLen.toNat) :=
      fun ⟨hop, hlong⟩ => Nat.not_lt.mpr (hfits (hstring.mpr hop)) hlong
    rw [h, if_neg (not_not_intro hrsv), if_neg hok]; rfl

end Sys2Proof.Machine
end

section
/-! PROOF. SplitN (41_filename_codec.md R131): how many segments a split has, and that a segment ended by a dot holds
none. -/

namespace Sys2Proof.Machine

/-- A split at up to `k` dots goes segment by segment: the string has no dot left, or a first segment without one and the
split of what follows its dot. -/
theorem splitDots_succ_cases (k : Nat) (s : List Byte) :
    (dot ∉ s ∧ splitDots (k + 1) s = [s])
      ∨ ∃ g t, dot ∉ g ∧ s = g ++ dot :: t ∧ splitDots (k + 1) s = g :: splitDots k t := by
  by_cases hdot : dot ∈ s
  · obtain ⟨g, t, rfl, hg⟩ := List.eq_append_cons_of_mem hdot
    exact .inr ⟨g, t, hg, rfl, splitDots_append_dot k g t hg⟩
  · exact .inl ⟨hdot, splitDots_of_no_dot (k + 1) s hdot⟩

theorem splitDots_length (k : Nat) (s : List Byte) : (splitDots k s).length = min (s.count dot) k + 1 := by
  induction k generalizing s with
  | zero => simp
  | succ k ih =>
    rcases splitDots_succ_cases k s with ⟨hs, hsplit⟩ | ⟨g, t, hg, rfl, hsplit⟩
    · rw [hsplit, List.count_eq_zero_of_not_mem hs]; simp
    · rw [hsplit, List.length_cons, ih, List.count_append, List.count_eq_zero_of_not_mem hg, List.count_cons_self]
      omega

/-- Only the segment after the `k`-th dot can hold a dot. -/
theorem dot_notMem_take_splitDots (k : Nat) (s : List Byte) : ∀ g ∈ (splitDots k s).take k, dot ∉ g := by
  induction k generalizing s with
  | zero => simp
  | succ k ih =>
    rcases splitDots_succ_cases k s with ⟨hs, hsplit⟩ | ⟨g, t, hg, rfl, hsplit⟩
    · rw [hsplit]; simpa using hs
    · rw [hsplit, List.take_succ_cons]
      exact List.forall_mem_cons.mpr ⟨hg, ih t⟩

/-- Settles O9: the three facts about a split at up to `k` dots, at `k = 3`. -/
theorem splitAtTheFirstThreeDots : Obligations.SplitAtTheFirstThreeDots :=
  fun s => ⟨intercalate_splitDots 3 s, splitDots_length 3 s, dot_notMem_take_splitDots 3 s⟩

end Sys2Proof.Machine
end

section
/-! PROOF. F2ID on filenames (41_filename_codec.md R132 to R141): the word it packs, the number of segments it needs, and
leading zeros. -/

namespace Sys2Proof.Machine

/-! ### The word of a filename -/

/-- The class letters (30_encoding.md R79). -/
theorem parseClass_letter {cls : BitVec 4} {c : Byte} (h : cls = 0 ∧ c = letterM ∨ cls = 1 ∧ c = letterG) :
    parseClass [c] = some cls := by
  rcases h with ⟨rfl, rfl⟩ | ⟨rfl, rfl⟩ <;> decide

/-- F2ID on a filename, its sequence missing, empty or present (41_filename_codec.md R136, R137). -/
theorem f2id_filename {cls : BitVec 4} {c : Byte} {ts tail q : List Byte}
    (hclass : cls = 0 ∧ c = letterM ∨ cls = 1 ∧ c = letterG) (hne : ts ≠ []) (hdigits : ∀ b ∈ ts, isDecDigit b = true)
    (hmin : 1 ≤ decValue ts) (hmax : decValue ts ≤ 0xFFFFFFFF) (hhex : ∀ b ∈ q, isHexDigit b = true)
    (hle : hexValue q ≤ 0xFFF) (htail : tail = [dot] ++ q ∨ tail = [] ∧ q = []) :
    f2id ([c, dot] ++ ts ++ [dot, letterA] ++ tail)
      = (pack cls (BitVec.ofNat 32 (decValue ts)) (BitVec.ofNat 12 (hexValue q)), true) := by
  have hsegs : parseSegments [c] ts [letterA] q
      = some (pack cls (BitVec.ofNat 32 (decValue ts)) (BitVec.ofNat 12 (hexValue q))) :=
    parseSegments_eq_some.mpr ⟨cls, _, _, parseClass_letter hclass,
      parseTimestamp_eq_some.mpr ⟨hne, hdigits, hmin, hmax, rfl⟩, rfl, parseSequence_eq_some.mpr ⟨hhex, hle, rfl⟩, rfl⟩
  refine f2id_of_some (parseFilename_eq_some.mpr ⟨_, _, _, _, hsegs, ?_⟩)
  rcases htail with rfl | ⟨rfl, rfl⟩
  · exact .inr (by simp)
  · exact .inl ⟨by simp, rfl⟩

/-- The packing of a timestamp and a sequence that fit their fields, on the numbers themselves (41_filename_codec.md
R137). -/
theorem pack_ofNat (cls : BitVec 4) {ts seq : Nat} (hts : ts ≤ 0xFFFFFFFF) (hseq : seq ≤ 0xFFF) :
    pack cls (BitVec.ofNat 32 ts) (BitVec.ofNat 12 seq)
      = (cls.setWidth 64 <<< 44) ||| (BitVec.ofNat 64 ts <<< 12) ||| BitVec.ofNat 64 seq := by
  rw [pack, BitVec.setWidth_ofNat_of_le_of_lt (by decide) (by omega),
    BitVec.setWidth_ofNat_of_le_of_lt (by decide) (by omega)]

/-- A word written back at the end of F2ID, as one update of the state. -/
theorem exec_f2id_of_some {s : State} {p : Word} (h : f2id s.stringOperand = (p, true)) :
    exec .f2id s = .next
      { s with
        pidOut := p, outLen := 0, outBuf := List.replicate 18 0, ok := true, cause := .none, phase := .idle
        done := true } := by
  have hexec : exec .f2id s = .next (s.wbWord (f2id s.stringOperand).1 (f2id s.stringOperand).2).finish := rfl
  rw [hexec, h]
  rfl

/-- Settles O11: F2ID packs the filename's fields, and the packing writes its number. -/
theorem f2idPacksTheFilename : Obligations.F2idPacksTheFilename := by
  intro s cls c ts tail q hclass hne hdigits hmin hmax hhex hle htail _ hoperand
  rw [← pack_ofNat cls hmax hle]
  refine exec_f2id_of_some ?_
  rw [hoperand]
  exact f2id_filename hclass hne hdigits hmin hmax hhex hle htail

/-! ### The number of segments -/

/-- An accepted string has the two dots that end its first two segments (41_filename_codec.md R132). -/
theorem two_le_count_dot_of_parseFilename {s : List Byte} {p : Word} (h : parseFilename s = some p) :
    2 ≤ s.count dot := by
  obtain ⟨a, b, c, d, -, ⟨rfl, -⟩ | rfl⟩ := parseFilename_eq_some.mp h
  · simp only [List.count_append, List.count_cons_self]; omega
  · simp only [List.count_append, List.count_cons_self]; omega

/-- Settles O13: an accepted string has two dots, and a filename may end after its third segment. -/
theorem threeSegmentsAreEnough : Obligations.ThreeSegmentsAreEnough := by
  constructor
  · intro s hcount
    refine f2id_of_none (Option.eq_none_iff_forall_ne_some.mpr fun p h => ?_)
    have := two_le_count_dot_of_parseFilename h
    omega
  · intro cls c ts hclass hne hdigits hmin hmax
    simpa [hexValue] using
      f2id_filename (q := []) hclass hne hdigits hmin hmax (by simp) (by simp [hexValue]) (.inr ⟨rfl, rfl⟩)

/-! ### Leading zeros -/

theorem decValue_zeros (m : Nat) (ts : List Byte) : decValue (List.replicate m 0x30 ++ ts) = decValue ts :=
  numeralValue_zeros decVal 10 0x30 rfl m ts

theorem hexValue_zeros (n : Nat) (q : List Byte) : hexValue (List.replicate n 0x30 ++ q) = hexValue q :=
  numeralValue_zeros hexVal 16 0x30 rfl n q

/-- Zeros in front keep a numeral one of digits, where '0' is a digit. -/
theorem forall_mem_zeros_append {digit : Byte → Bool} (hzero : digit 0x30 = true) (n : Nat) (t : List Byte) :
    (∀ b ∈ List.replicate n 0x30 ++ t, digit b = true) ↔ ∀ b ∈ t, digit b = true := by
  rw [List.forall_mem_append]
  exact and_iff_right fun b hb => List.eq_of_mem_replicate hb ▸ hzero

theorem parseTimestamp_zeros {ts : List Byte} (hne : ts ≠ []) (m : Nat) :
    parseTimestamp (List.replicate m 0x30 ++ ts) = parseTimestamp ts := by
  have hne' : List.replicate m 0x30 ++ ts ≠ [] := List.append_ne_nil_of_right_ne_nil _ hne
  refine Option.ext fun v => ?_
  rw [parseTimestamp_eq_some, parseTimestamp_eq_some, decValue_zeros, forall_mem_zeros_append (by decide)]
  exact and_congr_left' (iff_of_true hne' hne)

theorem parseSequence_zeros (q : List Byte) (n : Nat) :
    parseSequence (List.replicate n 0x30 ++ q) = parseSequence q := by
  refine Option.ext fun v => ?_
  rw [parseSequence_eq_some, parseSequence_eq_some, hexValue_zeros, forall_mem_zeros_append (by decide)]

/-- A timestamp of zeros only, or an empty one, is out of range (41_filename_codec.md R134). -/
theorem parseTimestamp_replicate_zero (m : Nat) : parseTimestamp (List.replicate m 0x30) = none := by
  refine Option.eq_none_iff_forall_ne_some.mpr fun v h => ?_
  obtain ⟨-, -, hmin, -⟩ := parseTimestamp_eq_some.mp h
  have hvalue : decValue (List.replicate m 0x30) = 0 := by simpa [decValue] using decValue_zeros m []
  omega

/-- A class or timestamp segment that fails its check makes the filename malformed, whatever follows it. -/
theorem parseFilename_of_bad_segment {s a b : List Byte} {gs : List (List Byte)} (hsplit : splitN s = a :: b :: gs)
    (hbad : parseClass a = none ∨ parseTimestamp b = none) : parseFilename s = none := by
  have hsegs (c d : List Byte) : parseSegments a b c d = none := by
    rcases hbad with h | h
    · simp [parseSegments, h]
    · simp [parseSegments, h]
  rcases gs with _ | ⟨c, _ | ⟨d, _ | ⟨e, gs⟩⟩⟩
  · simp [parseFilename, hsplit]
  · simp [parseFilename, hsplit, hsegs]
  · simp [parseFilename, hsplit, hsegs]
  · simp [parseFilename, hsplit]

/-- With a dot for its class byte a string has an empty class segment. -/
theorem parseFilename_two_dots (s : List Byte) : parseFilename (dot :: dot :: s) = none :=
  parseFilename_of_bad_segment (a := []) (b := []) (gs := splitDots 1 s) rfl (.inl rfl)

theorem dot_notMem_of_digits {ts : List Byte} (hdigits : ∀ b ∈ ts, isDecDigit b = true) : dot ∉ ts :=
  fun hdot => absurd (hdigits dot hdot) (by decide)

section
variable {c : Byte} {ts ts' q q' : List Byte}

theorem parseFilename_three (hc : c ≠ dot) (hts : dot ∉ ts) :
    parseFilename ([c, dot] ++ ts ++ [dot, letterA]) = parseSegments [c] ts [letterA] [] := by
  have hsplit := splitN_join_three (a := [c]) (c := [letterA]) (by simpa using hc.symm) hts (by decide)
  rw [parseFilename, show [c, dot] ++ ts ++ [dot, letterA] = [c] ++ dot :: (ts ++ dot :: [letterA]) by simp, hsplit]

theorem parseFilename_four (hc : c ≠ dot) (hts : dot ∉ ts) :
    parseFilename ([c, dot] ++ ts ++ [dot, letterA, dot] ++ q) = parseSegments [c] ts [letterA] q := by
  have hsplit := splitN_join_four (a := [c]) (c := [letterA]) (by simpa using hc.symm) hts (by decide) q
  rw [parseFilename,
    show [c, dot] ++ ts ++ [dot, letterA, dot] ++ q = [c] ++ dot :: (ts ++ dot :: ([letterA] ++ dot :: q)) by simp,
    hsplit]

theorem parseSegments_congr (htime : parseTimestamp ts = parseTimestamp ts') (hseq : parseSequence q = parseSequence q')
    (a b : List Byte) : parseSegments a ts b q = parseSegments a ts' b q' := by
  rw [parseSegments, parseSegments, htime, hseq]

/-- What the parser answers depends on the timestamp and the sequence through their checked values alone; if the class
byte is itself a dot, nothing after it counts. -/
theorem parseFilename_congr (hts : dot ∉ ts) (hts' : dot ∉ ts') (htime : parseTimestamp ts = parseTimestamp ts')
    (hseq : parseSequence q = parseSequence q') :
    parseFilename ([c, dot] ++ ts ++ [dot, letterA, dot] ++ q)
        = parseFilename ([c, dot] ++ ts' ++ [dot, letterA, dot] ++ q')
      ∧ parseFilename ([c, dot] ++ ts ++ [dot, letterA]) = parseFilename ([c, dot] ++ ts' ++ [dot, letterA]) := by
  by_cases hc : c = dot
  · subst hc; simp [parseFilename_two_dots]
  · rw [parseFilename_four hc hts, parseFilename_four hc hts', parseFilename_three hc hts, parseFilename_three hc hts']
    exact ⟨parseSegments_congr htime hseq _ _, parseSegments_congr htime rfl _ _⟩

end

theorem f2id_eq_of_parseFilename_eq {s t : List Byte} (h : parseFilename s = parseFilename t) : f2id s = f2id t := by
  rw [f2id, f2id, h]

theorem dot_notMem_zeros (m : Nat) : dot ∉ List.replicate m (0x30 : Byte) :=
  fun h => absurd (List.eq_of_mem_replicate h) (by decide)

/-- Settles O14: zeros in front change neither value, and a timestamp of zeros is out of range. -/
theorem leadingZerosDoNotCount : Obligations.LeadingZerosDoNotCount := by
  constructor
  · intro c ts q m n hne hdigits _
    have hdigits' := (forall_mem_zeros_append (by decide) m ts).mpr hdigits
    obtain ⟨hfour, hthree⟩ := parseFilename_congr (c := c) (dot_notMem_of_digits hdigits')
      (dot_notMem_of_digits hdigits) (parseTimestamp_zeros hne m) (parseSequence_zeros q n)
    exact ⟨f2id_eq_of_parseFilename_eq hfour, f2id_eq_of_parseFilename_eq hthree⟩
  · intro c m tail
    have hstring : [c, dot] ++ List.replicate m 0x30 ++ [dot] ++ tail
        = [c] ++ dot :: (List.replicate m 0x30 ++ dot :: tail) := by simp
    rw [hstring]
    by_cases hc : c = dot
    · subst hc
      exact f2id_of_none (parseFilename_two_dots _)
    · have hsplit : splitN ([c] ++ dot :: (List.replicate m 0x30 ++ dot :: tail))
          = [c] :: List.replicate m 0x30 :: splitDots 1 tail := by
        rw [splitN, splitDots_append_dot _ _ _ (by simpa using Ne.symm hc),
          splitDots_append_dot _ _ _ (dot_notMem_zeros m)]
      exact f2id_of_none (parseFilename_of_bad_segment hsplit (.inr (parseTimestamp_replicate_zero m)))

end Sys2Proof.Machine
end

section
/-! PROOF. ID2F and the class of a PID (41_filename_codec.md R146). -/

namespace Sys2Proof.Machine

theorem renderFilename_head? (c : Byte) (ts seq : Nat) : (renderFilename c ts seq).head? = some c := rfl

/-- The classes 2 to 15 are those other than 0 and 1. -/
theorem two_le_toNat_iff : ∀ cls : BitVec 4, 2 ≤ cls.toNat ↔ cls ≠ 0 ∧ cls ≠ 1 := by decide

/-- Settles O16: the two answers of ID2F, a rendering that starts with its class letter and the empty string. -/
theorem id2fFailsOnTheClassAlone : Obligations.Id2fFailsOnTheClassAlone := by
  intro p
  rw [two_le_toNat_iff]
  rcases id2f_cases p with ⟨c, hc, h⟩ | ⟨h0, h1, h⟩
  · rw [h, renderFilename_head?]
    rcases hc with ⟨rfl, hclass⟩ | ⟨rfl, hclass⟩
    · simp [hclass]
    · simp [hclass]
  · rw [h]
    exact ⟨⟨fun _ => rfl, fun _ => ⟨h0, h1⟩⟩, fun _ => rfl, fun hclass => absurd hclass h0,
      fun hclass => absurd hclass h1⟩

end Sys2Proof.Machine
end

section
/-! PROOF. ID2C on small words and C2ID on strings that are no code (42_compact_codec.md R172, R173, R176, R177). -/

namespace Sys2Proof.Machine

/-! ### Left padding -/

/-- The loop of ID2C on the word 0 writes '0's alone. -/
theorem encodeSymbols_zero_word (j : Nat) (acc : List Byte) :
    encodeSymbols j 0 acc = List.replicate j 0x30 ++ acc := by
  induction j generalizing acc with
  | zero => rfl
  | succ j ih =>
    have hstep : encodeSymbols (j + 1) 0 acc = encodeSymbols j 0 (0x30 :: acc) := rfl
    rw [hstep, ih, List.replicate_succ', List.append_assoc, List.singleton_append]

/-- A word of at most `k` symbols has been used up after `k` iterations, and the iterations left write '0's. -/
theorem encodeSymbols_pad (j k : Nat) (v : Word) (acc : List Byte) (hv : v.toNat < 64 ^ k) :
    encodeSymbols (j + k) v acc = List.replicate j 0x30 ++ encodeSymbols k v acc := by
  induction k generalizing v acc with
  | zero =>
    have hzero : v = 0 := BitVec.eq_of_toNat_eq (by simpa using hv)
    subst hzero
    exact encodeSymbols_zero_word j acc
  | succ k ih =>
    have hquot : (v / 64#64).toNat < 64 ^ k := by
      rw [BitVec.toNat_udiv]
      exact Nat.div_lt_of_lt_mul (by rwa [pow_succ'] at hv)
    rw [← Nat.add_assoc, encodeSymbols_succ, encodeSymbols_succ, ih _ _ hquot]

/-- ID2C's string for a word of at most `k` symbols starts with the `8 - k` symbols of padding. -/
theorem id2c_take_of_lt {k : Nat} (hk : k ≤ codeLength) {p : Word} (hp : p.toNat < 64 ^ k) :
    (id2c p).1.take (codeLength - k) = List.replicate (codeLength - k) 0x30 := by
  have hpad : (id2c p).1 = List.replicate (codeLength - k) 0x30 ++ encodeSymbols k p [] := by
    rw [← encodeSymbols_pad _ _ _ _ hp, Nat.sub_add_cancel hk]; rfl
  rw [hpad, List.take_left' List.length_replicate]

/-- The success bit of ID2C is what OK and CAUSE are written from (42_compact_codec.md R173). -/
theorem exec_id2c_succeeds (s : State) : ∃ t, exec .id2c s = .next t ∧ t.ok = true ∧ t.cause = .none :=
  ⟨_, exec_id2c s, id2c_ok s.pidIn, (causeOfOk_eq_none_iff _).mpr (id2c_ok s.pidIn)⟩

/-- Settles O23: the code has a fixed length, the loop pads what is short, and the write-back's success bit is 1. -/
theorem id2cIsPaddedToEightAndNeverFails : Obligations.Id2cIsPaddedToEightAndNeverFails :=
  fun p => ⟨id2c_length p, id2c_ok p, fun _ hk hp => id2c_take_of_lt hk hp, exec_id2c_succeeds⟩

/-! ### Refused strings -/

/-- A byte outside the alphabet stops the loop of C2ID at any position. -/
theorem decodeSymbols_of_foreign {s : List Byte} (h : ∃ b ∈ s, alphaInv b = none) (acc : Word) :
    decodeSymbols s acc = none := by
  obtain ⟨b, hb, hnone⟩ := h
  obtain ⟨x, y, rfl⟩ := List.append_of_mem hb
  rw [decodeSymbols_append]
  cases decodeSymbols x acc with
  | none => rfl
  | some a => exact decodeSymbols_cons_none hnone y a

theorem c2id_of_no_code {c : List Byte} (h : c.length ≠ codeLength ∨ ∃ b ∈ c, alphaInv b = none) :
    c2id c = (0, false) := by
  rcases c2id_cases c with ⟨hlen, p, hsome, -⟩ | ⟨-, -, hc⟩ | ⟨-, hc⟩
  · rcases h with hne | hforeign
    · exact absurd hlen hne
    · exact absurd (hsome.symm.trans (decodeSymbols_of_foreign hforeign 0)) (Option.some_ne_none p)
  · exact hc
  · exact hc

theorem exec_c2id (s : State) :
    exec .c2id s = .next (s.wbWord (c2id s.stringOperand).1 (c2id s.stringOperand).2).finish := rfl

/-- A word written back at the end of a command, as one update of the state (40_host_interface.md R109). -/
theorem State.finish_wbWord (s : State) (p : Word) (k : Bool) :
    (s.wbWord p k).finish
      = { s with
          pidOut := p, outLen := 0, outBuf := List.replicate Config.outBufSize 0, ok := k
          cause := if k = true then .none else .malformed, phase := .idle, done := true } := by
  rw [← causeOfOk_eq_ite]
  rfl

/-- Settles O25: the length check or the loop refuses the string, and the sentinel is written back. -/
theorem c2idRefusesWhatIsNoCode : Obligations.C2idRefusesWhatIsNoCode := by
  refine ⟨fun _ => c2id_of_no_code, fun s _ hoperand => ?_⟩
  rw [exec_c2id, c2id_of_no_code hoperand, State.finish_wbWord]
  rfl

end Sys2Proof.Machine
end

section
/-! PROOF. CMD bytes and their encodings (30_encoding.md R70 to R73). -/

namespace Sys2Proof

/-- Settles O2: the four bytes with RSV = 0 and the first and last of the others. -/
theorem wordsOfTheOpcodeMapDecode : Obligations.WordsOfTheOpcodeMapDecode := by
  unfold Obligations.WordsOfTheOpcodeMapDecode
  decide

theorem commandFields : ∀ i : Instr, Laws.CommandFields.Statement i
  | .f2id => Laws.CommandFields.f2id
  | .id2f => Laws.CommandFields.id2f
  | .id2c => Laws.CommandFields.id2c
  | .c2id => Laws.CommandFields.c2id

theorem decodeByte_encode (i : Instr) : decodeByte (encode i) = .ok i := by
  obtain ⟨-, hrsv, hop, hinstr⟩ := commandFields i
  rw [decodeByte, if_pos hrsv, hop, hinstr]

theorem opOfInstr_instrOfOp : ∀ op : BitVec 2, opOfInstr (instrOfOp op) = op := by decide

/-- A byte is its two fields side by side (30_encoding.md R70). -/
theorem rsvField_append_opField (c : Byte) : rsvField c ++ opField c = c := by
  have h : rsvField c ++ opField c = c.extractLsb' 0 8 :=
    BitVec.extractLsb'_append_extractLsb'_eq_extractLsb' (start₂ := 2) rfl
  rw [h, BitVec.extractLsb'_eq_self]

theorem decodeByte_eq_ok {c : Byte} {i : Instr} (h : decodeByte c = .ok i) :
    rsvField c = 0 ∧ i = instrOfOp (opField c) := by
  unfold decodeByte at h
  split_ifs at h with hrsv
  exact ⟨hrsv, (Except.ok.inj h).symm⟩

/-- Settles O3: the fields of an encoding are RSV = 0 and the command's OP, and a byte is made of its fields. -/
theorem decodeAndEncodeAgree : Obligations.DecodeAndEncodeAgree := by
  constructor
  · intro i rest _
    rw [decode, decodeByte_encode]
  · intro c i h
    obtain ⟨hrsv, rfl⟩ := decodeByte_eq_ok h
    have hfields := rsvField_append_opField c
    rw [hrsv] at hfields
    rw [encode, opOfInstr_instrOfOp]
    exact hfields.symm

end Sys2Proof
end

section
/-! PROOF. The packed identifier (30_encoding.md R75 to R77): its fields as shifts and masks, and as what was packed. -/

namespace Sys2Proof.Machine

/-- A field of a word, zero-extended, is a shift and a mask. -/
theorem setWidth_extractLsb' (p : Word) (i : Nat) {n : Nat} (hn : n ≤ 64) :
    (p.extractLsb' i n).setWidth 64 = (p >>> i) &&& BitVec.ofNat 64 (2 ^ n - 1) := by
  have hpow : 2 ^ n ≤ 2 ^ 64 := Nat.pow_le_pow_right (by decide) hn
  have hpos : 0 < 2 ^ n := Nat.two_pow_pos n
  apply BitVec.eq_of_toNat_eq
  rw [BitVec.toNat_setWidth, BitVec.extractLsb'_toNat, BitVec.toNat_and, BitVec.toNat_ushiftRight, BitVec.toNat_ofNat,
    Nat.mod_eq_of_lt (show 2 ^ n - 1 < 2 ^ 64 by omega), Nat.and_two_pow_sub_one_eq_mod,
    Nat.mod_eq_of_lt ((Nat.mod_lt _ hpos).trans_le hpow)]

theorem pack_eq_append (cls : BitVec 4) (ts : BitVec 32) (seq : BitVec 12) :
    pack cls ts seq = 0#16 ++ cls ++ ts ++ seq := by
  have hcls : cls.toNat <<< 44 < 2 ^ 64 := by rw [Nat.shiftLeft_eq]; omega
  have hts : ts.toNat <<< 12 < 2 ^ 64 := by rw [Nat.shiftLeft_eq]; omega
  apply BitVec.eq_of_toNat_eq
  simp only [pack, BitVec.toNat_or, BitVec.toNat_shiftLeft, BitVec.toNat_setWidth_of_le, BitVec.toNat_append,
    BitVec.toNat_ofNat, Nat.shiftLeft_or_distrib, ← Nat.shiftLeft_add, Nat.mod_eq_of_lt hcls, Nat.mod_eq_of_lt hts,
    Nat.zero_mod, Nat.zero_shiftLeft, Nat.zero_or, Nat.reduceLeDiff]

section
variable (cls : BitVec 4) (ts : BitVec 32) (seq : BitVec 12)

theorem pidClass_pack : pidClass (pack cls ts seq) = cls := by
  have hclass : (0#16 ++ cls ++ ts ++ seq).extractLsb' 44 4 = cls := by
    rw [BitVec.extractLsb'_append_eq_of_le (by decide), BitVec.extractLsb'_append_eq_of_le (by decide)]
    exact BitVec.extractLsb'_append_eq_right
  rw [pack_eq_append]
  exact hclass

theorem pidTimestamp_pack : pidTimestamp (pack cls ts seq) = ts := by
  have htime : (0#16 ++ cls ++ ts ++ seq).extractLsb' 12 32 = ts := by
    rw [BitVec.extractLsb'_append_eq_of_le (by decide)]
    exact BitVec.extractLsb'_append_eq_right
  rw [pack_eq_append]
  exact htime

theorem pidSequence_pack : pidSequence (pack cls ts seq) = seq := by
  rw [pack_eq_append]
  exact BitVec.extractLsb'_append_eq_right

end

/-- Settles O6: the fields of the packed word, each read off the concatenation. -/
theorem unpackOfPack : Obligations.UnpackOfPack :=
  fun cls ts seq => ⟨pack_eq_append cls ts seq, pidClass_pack cls ts seq, pidTimestamp_pack cls ts seq,
    pidSequence_pack cls ts seq⟩

theorem toNat_low48 (p : Word) : (low48 p).toNat = p.toNat % 2 ^ 48 := by
  rw [low48, BitVec.toNat_and, ← Nat.and_two_pow_sub_one_eq_mod]
  rfl

/-- Bits 63:48 lie above every field of the low 48. -/
theorem extractLsb'_low48 (p : Word) {i n : Nat} (h : i + n ≤ 48) :
    (low48 p).extractLsb' i n = p.extractLsb' i n := by
  ext j hj
  have hlow : i + j < 48 := by omega
  simp only [BitVec.getElem_extractLsb', BitVec.getLsbD, toNat_low48, Nat.testBit_mod_two_pow, hlow, decide_true,
    Bool.true_and]

theorem pidClass_low48 (p : Word) : pidClass (low48 p) = pidClass p := extractLsb'_low48 p (by decide)

theorem pidTimestamp_low48 (p : Word) : pidTimestamp (low48 p) = pidTimestamp p := extractLsb'_low48 p (by decide)

theorem pidSequence_low48 (p : Word) : pidSequence (low48 p) = pidSequence p := extractLsb'_low48 p (by decide)

/-- Settles O7: each field is a shift and a mask, and lies within the low 48 bits. -/
theorem fieldsByShiftAndMask : Obligations.FieldsByShiftAndMask := by
  intro p
  have hsequence : (pidSequence p).setWidth 64 = p &&& 0xFFF := by
    simpa [pidSequence] using setWidth_extractLsb' p 0 (n := 12) (by decide)
  exact ⟨setWidth_extractLsb' p 44 (by decide), setWidth_extractLsb' p 12 (by decide), hsequence,
    (pidClass_low48 p).symm, (pidTimestamp_low48 p).symm, (pidSequence_low48 p).symm⟩

end Sys2Proof.Machine
end

section
/-! PROOF. The compact codec on values (30_encoding.md R80 to R82; 42_compact_codec.md): a code is the numeral of base 64
of its PID's low 48 bits. -/

namespace Sys2Proof.Machine

/-! ### The tables -/

/-- Settles O4: the 64 entries of the table. -/
theorem alphabetInClosedForm : Obligations.AlphabetInClosedForm := by
  refine ⟨rfl, ?_⟩
  decide

theorem alphaInv_alpha : ∀ v : BitVec 6, alphaInv (alpha v) = some v := by decide

/-- Each range of INV is the one that ALPHA has for its values (30_encoding.md R81). -/
theorem alpha_of_alphaInv {b : Byte} {v : BitVec 6} (h : alphaInv b = some v) : alpha v = b := by
  obtain ⟨hdigit, hupper, hlower, hminus, hunderscore⟩ := alphabetInClosedForm.2 v
  have hbyte {n : Nat} (hn : n = b.toNat) : BitVec.ofNat 8 n = b := by rw [hn, BitVec.ofNat_toNat, BitVec.setWidth_eq]
  unfold alphaInv at h
  split_ifs at h with h1 h2 h3 h4 h5
  · have hv : v.toNat = b.toNat - 0x30 := by rw [← Option.some.inj h, BitVec.toNat_ofNat]; omega
    rw [hdigit (by omega), hbyte (by omega)]
  · have hv : v.toNat = b.toNat - 0x41 + 10 := by rw [← Option.some.inj h, BitVec.toNat_ofNat]; omega
    rw [hupper (by omega), hbyte (by omega)]
  · have hv : v.toNat = b.toNat - 0x61 + 36 := by rw [← Option.some.inj h, BitVec.toNat_ofNat]; omega
    rw [hlower (by omega), hbyte (by omega)]
  · rw [hminus (Option.some.inj h).symm, h4]
  · rw [hunderscore (Option.some.inj h).symm, h5]

theorem alpha_mem : ∀ v : BitVec 6, alpha v ∈ alphabet := by decide

theorem alphaInv_of_mem : ∀ b ∈ alphabet, alphaInv b ≠ none := by decide

theorem alphaInv_eq_none_iff (b : Byte) : alphaInv b = none ↔ b ∉ alphabet := by
  refine ⟨fun h hb => alphaInv_of_mem b hb h, fun hb => Option.eq_none_iff_forall_ne_some.mpr fun v hv => hb ?_⟩
  rw [← alpha_of_alphaInv hv]
  exact alpha_mem v

/-- Settles O5: the two tables by their 64 and 256 entries. -/
theorem alphabetAndInverseAgree : Obligations.AlphabetAndInverseAgree :=
  ⟨alphaInv_alpha, fun _ _ => alpha_of_alphaInv, alphaInv_eq_none_iff⟩

/-! ### ID2C: the symbols in closed form -/

/-- One iteration of ID2C takes the low 6 bits and shifts the word by as many. -/
theorem encodeSymbols_succ_shift (k : Nat) (v : Word) (acc : List Byte) :
    encodeSymbols (k + 1) v acc = encodeSymbols k (v >>> 6) (alpha (v.extractLsb' 0 6) :: acc) := by
  have hquot : v / 64#64 = v >>> 6 := by
    apply BitVec.eq_of_toNat_eq
    simp [BitVec.toNat_udiv, Nat.shiftRight_eq_div_pow]
  have hrem : (v % 64#64).setWidth 6 = v.extractLsb' 0 6 := by
    apply BitVec.eq_of_toNat_eq
    simp [BitVec.toNat_umod]
  rw [encodeSymbols_succ, hquot, hrem]

/-- The symbols of `k` iterations, most significant first (42_compact_codec.md R170). -/
theorem encodeSymbols_eq_map (k : Nat) (v : Word) (acc : List Byte) :
    encodeSymbols k v acc = (List.range k).reverse.map (fun i => alpha (v.extractLsb' (6 * i) 6)) ++ acc := by
  induction k generalizing v acc with
  | zero => rfl
  | succ k ih =>
    have hshift (i : Nat) : (v >>> 6).extractLsb' (6 * i) 6 = v.extractLsb' (6 * (i + 1)) 6 := by
      ext j hj
      have hindex : 6 + (6 * i + j) = 6 * (i + 1) + j := by omega
      simp only [BitVec.getElem_extractLsb', BitVec.getLsbD_ushiftRight, hindex]
    rw [encodeSymbols_succ_shift, ih, List.range_succ_eq_map]
    simp [hshift, Function.comp_def]

/-- ID2C's string in closed form. -/
theorem id2c_fst (p : Word) :
    (id2c p).1 = (List.range codeLength).reverse.map fun i => alpha (p.extractLsb' (6 * i) 6) := by
  rw [id2c, encodeSymbols_eq_map, List.append_nil]

/-- Settles O22: the eight symbols fit in OUT_BUF, ten zeros after them. -/
theorem id2cWritesTheEightSymbols : Obligations.Id2cWritesTheEightSymbols := by
  intro s
  rw [exec_id2c, State.finish_wbStr s _ _ (id2c_length_le s.pidIn), id2c_length, id2c_fst, id2c_ok]
  rfl

/-! ### Codes as numerals of base 64 -/

/-- The value of a symbol, a byte outside the alphabet counting 0. -/
def symbolValue (b : Byte) : Nat := ((alphaInv b).getD 0).toNat

theorem symbolValue_lt (b : Byte) : symbolValue b < 64 := ((alphaInv b).getD 0).isLt

theorem symbolValue_of_alphaInv {b : Byte} {d : BitVec 6} (h : alphaInv b = some d) : symbolValue b = d.toNat := by
  rw [symbolValue, h, Option.getD_some]

theorem symbolValue_alpha (v : BitVec 6) : symbolValue (alpha v) = v.toNat :=
  symbolValue_of_alphaInv (alphaInv_alpha v)

theorem codeValue_eq_numeralValue (s : List Byte) : codeValue s = numeralValue symbolValue 64 s := by
  induction s with
  | nil => rfl
  | cons b s ih => rw [codeValue, ih]; rfl

theorem codeValue_concat (s : List Byte) (b : Byte) : codeValue (s ++ [b]) = codeValue s * 64 + symbolValue b := by
  simp [codeValue_eq_numeralValue, numeralValue_append, numeralValue]

theorem codeValue_lt (s : List Byte) : codeValue s < 64 ^ s.length := by
  rw [codeValue_eq_numeralValue]
  exact numeralValue_lt symbolValue 64 s fun b _ => symbolValue_lt b

/-- One symbol more than these still has its value in a word. -/
theorem codeValue_lt_two_pow_58 {s : List Byte} (hlen : s.length < 10) : codeValue s < 2 ^ 58 := calc
  codeValue s < 64 ^ s.length := codeValue_lt s
  _ ≤ 64 ^ 9 := Nat.pow_le_pow_right (by decide) (by omega)
  _ ≤ 2 ^ 58 := by decide

/-! ### C2ID: the value of a code -/

/-- One iteration of C2ID appends a digit of base 64. -/
theorem shift_or_symbol {n : Nat} (hn : n < 2 ^ 58) (d : BitVec 6) :
    (BitVec.ofNat 64 n <<< 6) ||| d.setWidth 64 = BitVec.ofNat 64 (n * 64 + d.toNat) := by
  have hd := d.isLt
  apply BitVec.eq_of_toNat_eq
  rw [BitVec.toNat_or, BitVec.toNat_shiftLeft, BitVec.toNat_setWidth, BitVec.toNat_ofNat, BitVec.toNat_ofNat,
    Nat.mod_eq_of_lt (show n < 2 ^ 64 by omega), Nat.shiftLeft_eq, Nat.mod_eq_of_lt (show d.toNat < 2 ^ 64 by omega),
    Nat.mod_eq_of_lt (show n * 2 ^ 6 < 2 ^ 64 by omega), Nat.mod_eq_of_lt (show n * 64 + d.toNat < 2 ^ 64 by omega),
    ← Nat.shiftLeft_eq, ← Nat.shiftLeft_add_eq_or_of_lt hd, Nat.shiftLeft_eq]

/-- The loop of C2ID on alphabet bytes, few enough for a word, computes their value (42_compact_codec.md R178). -/
theorem decodeSymbols_of_symbols (s : List Byte) (hs : ∀ b ∈ s, alphaInv b ≠ none) (hlen : s.length ≤ 10) :
    decodeSymbols s 0 = some (BitVec.ofNat 64 (codeValue s)) := by
  induction s using List.reverseRecOn with
  | nil => rfl
  | append_singleton s b ih =>
    obtain ⟨d, hd⟩ := Option.ne_none_iff_exists'.mp (hs b (by simp))
    have hshort : s.length < 10 := by simpa using hlen
    rw [decodeSymbols_append, ih (fun x hx => hs x (by simp [hx])) hshort.le, Option.bind_some,
      decodeSymbols_cons_some hd, shift_or_symbol (codeValue_lt_two_pow_58 hshort), codeValue_concat,
      symbolValue_of_alphaInv hd]
    rfl

theorem c2id_of_code {c : List Byte} (hlen : c.length = codeLength) (hc : ∀ b ∈ c, alphaInv b ≠ none) :
    c2id c = (BitVec.ofNat 64 (codeValue c), true) := by
  have hloop := decodeSymbols_of_symbols c hc (by rw [hlen]; decide)
  rw [c2id, if_pos hlen, hloop]

theorem codeValue_lt_of_code {c : List Byte} (hlen : c.length = codeLength) : codeValue c < 2 ^ 48 := by
  have h := codeValue_lt c
  rwa [hlen] at h

/-- Settles O24: the loop's word is the value of the code, which eight symbols keep below 2^48. -/
theorem c2idReadsTheValue : Obligations.C2idReadsTheValue := by
  intro s _ hlen hcode
  refine ⟨codeValue_lt_of_code hlen, ?_⟩
  rw [exec_c2id, c2id_of_code hlen hcode, State.finish_wbWord]
  rfl

/-! ### The round trips -/

/-- ID2C writes alphabet bytes. -/
theorem id2c_symbols (p : Word) : ∀ b ∈ (id2c p).1, alphaInv b ≠ none := by
  intro b hb
  rw [id2c_fst] at hb
  obtain ⟨i, -, rfl⟩ := List.mem_map.mp hb
  rw [alphaInv_alpha]
  exact Option.some_ne_none _

/-- One iteration splits off the last symbol. -/
theorem encodeSymbols_concat (k : Nat) (v : Word) :
    encodeSymbols (k + 1) v [] = encodeSymbols k (v >>> 6) [] ++ [alpha (v.extractLsb' 0 6)] := by
  rw [encodeSymbols_succ_shift, encodeSymbols_eq_map, encodeSymbols_eq_map, List.append_nil]

/-- The code of a word is the numeral of base 64 of its low bits. -/
theorem codeValue_encodeSymbols (k : Nat) (v : Word) : codeValue (encodeSymbols k v []) = v.toNat % 64 ^ k := by
  induction k generalizing v with
  | zero => simp [encodeSymbols, codeValue, Nat.mod_one]
  | succ k ih =>
    rw [encodeSymbols_concat, codeValue_concat, ih, symbolValue_alpha, BitVec.toNat_ushiftRight,
      BitVec.extractLsb'_toNat, Nat.shiftRight_eq_div_pow, Nat.shiftRight_zero, pow_succ' 64 k, Nat.mod_mul,
      Nat.add_comm, Nat.mul_comm 64]

/-- A shift by 6 takes the last digit of base 64 off, and the low 6 bits are that digit. -/
theorem ofNat_digit {n : Nat} (hn : n < 2 ^ 58) (d : BitVec 6) :
    BitVec.ofNat 64 (n * 64 + d.toNat) >>> 6 = BitVec.ofNat 64 n
      ∧ (BitVec.ofNat 64 (n * 64 + d.toNat)).extractLsb' 0 6 = d := by
  have hd := d.isLt
  constructor
  · apply BitVec.eq_of_toNat_eq
    simp only [BitVec.toNat_ushiftRight, BitVec.toNat_ofNat, Nat.shiftRight_eq_div_pow]
    omega
  · apply BitVec.eq_of_toNat_eq
    simp only [BitVec.extractLsb'_toNat, BitVec.toNat_ofNat, Nat.shiftRight_zero]
    omega

/-- A code is written again from its value. -/
theorem encodeSymbols_codeValue (c : List Byte) (hc : ∀ b ∈ c, alphaInv b ≠ none) (hlen : c.length ≤ 10) :
    encodeSymbols c.length (BitVec.ofNat 64 (codeValue c)) [] = c := by
  induction c using List.reverseRecOn with
  | nil => rfl
  | append_singleton c b ih =>
    obtain ⟨d, hd⟩ := Option.ne_none_iff_exists'.mp (hc b (by simp))
    have hshort : c.length < 10 := by simpa using hlen
    obtain ⟨hshift, hdigit⟩ := ofNat_digit (codeValue_lt_two_pow_58 hshort) d
    rw [codeValue_concat, symbolValue_of_alphaInv hd, List.length_append, List.length_singleton, encodeSymbols_concat,
      hshift, hdigit, ih (fun x hx => hc x (by simp [hx])) hshort.le, alpha_of_alphaInv hd]

/-- Settles O26: C2ID reads the value of the code, which is the PID's low 48 bits. -/
theorem decodeOfTheCodeIsThePid : Obligations.DecodeOfTheCodeIsThePid := by
  intro p
  have hvalue : codeValue (id2c p).1 = (low48 p).toNat := by
    rw [toNat_low48]; exact codeValue_encodeSymbols codeLength p
  rw [c2id_of_code (id2c_length p) (id2c_symbols p), hvalue, BitVec.ofNat_toNat, BitVec.setWidth_eq]

/-- Settles O27: ID2C writes the value that C2ID read in as many symbols. -/
theorem codeOfTheDecodedPidIsTheCode : Obligations.CodeOfTheDecodedPidIsTheCode := by
  intro c hlen hcode
  have hcode' := encodeSymbols_codeValue c hcode (by omega)
  rw [hlen] at hcode'
  rw [c2id_of_code hlen hcode]
  exact ⟨rfl, Prod.ext hcode' rfl⟩

/-! ### The fields of a PID in its code -/

theorem id2c_low48 (p : Word) : id2c (low48 p) = id2c p := by
  refine Prod.ext ?_ rfl
  rw [id2c_fst, id2c_fst]
  refine List.map_congr_left fun i hi => ?_
  have hi' : i < codeLength := by simpa using hi
  rw [extractLsb'_low48 p (by unfold codeLength at hi'; omega)]

/-- The first symbol holds the class and the two high bits of the timestamp. -/
theorem id2c_head? (p : Word) : (id2c p).1.head? = some (alpha (pidClass p ++ p.extractLsb' 42 2)) := by
  have hfields : pidClass p ++ p.extractLsb' 42 2 = p.extractLsb' 42 6 :=
    BitVec.extractLsb'_append_extractLsb'_eq_extractLsb' (start₂ := 44) rfl
  rw [id2c_fst, hfields]
  rfl

/-- The symbols of the values 0 to 3 and 4 to 7. -/
theorem alpha_class : ∀ x : BitVec 2,
    (0x30 ≤ (alpha (0#4 ++ x)).toNat ∧ (alpha (0#4 ++ x)).toNat ≤ 0x33)
      ∧ (0x34 ≤ (alpha (1#4 ++ x)).toNat ∧ (alpha (1#4 ++ x)).toNat ≤ 0x37) := by decide

/-- Settles O28: the class is the high part of the first symbol's value. -/
theorem firstSymbolGivesTheClass : Obligations.FirstSymbolGivesTheClass := by
  intro p _
  obtain ⟨hzero, hone⟩ := alpha_class (p.extractLsb' 42 2)
  rw [id2c_head?]
  constructor
  · intro hclass
    rw [hclass]
    exact ⟨_, rfl, hzero⟩
  · intro hclass
    rw [hclass]
    exact ⟨_, rfl, hone⟩

end Sys2Proof.Machine
end

section
/-! PROOF. Numerals (00_scope.md R13): Dec and HexU write a number in digits of their base, and in as few as possible. -/

namespace Sys2Proof.Machine

/-! ### A numeral in any base -/

section
variable {base : Nat} {digit : Byte → Nat} {isDigit : Byte → Bool}

/-- The numeral has its number for value, whatever reads its symbols back as the digits they are. -/
theorem numeralValue_numeral (hbase : 2 ≤ base) (hdigit : ∀ d < base, digit (digitSymbol d) = d) {fuel n : Nat}
    (hfuel : n < fuel) : numeralValue digit base (numeral base fuel n) = n := by
  induction fuel generalizing n with
  | zero => omega
  | succ fuel ih =>
    rw [numeral_succ]
    split_ifs with hn
    · simp [numeralValue, hdigit n hn]
    · have hquot : n / base < n := Nat.div_lt_self (by omega) hbase
      rw [numeralValue_append, ih (by omega)]
      simpa [numeralValue, hdigit _ (Nat.mod_lt n (show 0 < base by omega))] using Nat.div_add_mod' n base

/-- No other digits of that value are fewer: `k` digits stay below `base ^ k`. -/
theorem numeral_length_le_of_value (hlt : ∀ b, isDigit b = true → digit b < base) {t : List Byte} (hne : t ≠ [])
    (hdigits : ∀ b ∈ t, isDigit b = true) (fuel : Nat) :
    (numeral base fuel (numeralValue digit base t)).length ≤ t.length := by
  obtain ⟨k, hk⟩ := Nat.exists_eq_succ_of_ne_zero (List.length_pos_iff.mpr hne).ne'
  have hvalue := numeralValue_lt digit base t fun b hb => hlt b (hdigits b hb)
  rw [hk] at hvalue ⊢
  exact numeral_length_le base fuel _ k hvalue

theorem digitSymbol_ne_zero {d : Nat} (hpos : d ≠ 0) (hd : d < 16) : digitSymbol d ≠ 0x30 := by
  intro h
  obtain ⟨-, hvalue, -⟩ := digitSymbol_spec d hd
  rw [h] at hvalue
  exact hpos hvalue.symm

/-- The first digit is that of the last quotient, which is not 0. -/
theorem numeral_head?_ne_zero (hbase : 2 ≤ base) (hmax : base ≤ 16) {fuel n : Nat} (hfuel : n < fuel) (hn : n ≠ 0) :
    (numeral base fuel n).head? ≠ some 0x30 := by
  induction fuel generalizing n with
  | zero => omega
  | succ fuel ih =>
    rw [numeral_succ]
    split_ifs with hsmall
    · simpa using digitSymbol_ne_zero hn (by omega)
    · have hquot : n / base < n := Nat.div_lt_self (by omega) hbase
      have hquot0 : n / base ≠ 0 := (Nat.div_pos (by omega) (by omega)).ne'
      obtain ⟨f, rfl⟩ := Nat.exists_eq_succ_of_ne_zero (show fuel ≠ 0 by omega)
      have hne : numeral base (f + 1) (n / base) ≠ [] := List.length_pos_iff.mp (numeral_length_pos base f _)
      rw [List.head?_append_of_ne_nil _ hne]
      exact ih (by omega) hquot0

end

/-! ### Dec and HexU -/

theorem digitSymbol_dec {d : Nat} (hd : d < 10) : isDecDigit (digitSymbol d) = true ∧ decVal (digitSymbol d) = d := by
  obtain ⟨-, -, hdec⟩ := digitSymbol_spec d (by omega)
  exact hdec hd

theorem digitSymbol_hex {d : Nat} (hd : d < 16) : isHexDigit (digitSymbol d) = true ∧ hexVal (digitSymbol d) = d := by
  obtain ⟨hdigit, hvalue, -⟩ := digitSymbol_spec d hd
  exact ⟨hdigit, hvalue⟩

theorem decNumeral_digits (n : Nat) : ∀ b ∈ decNumeral n, isDecDigit b = true := by
  intro b hb
  obtain ⟨d, hd, rfl⟩ := numeral_mem 10 _ _ (by decide) b hb
  exact (digitSymbol_dec hd).1

theorem digitSymbol_le : ∀ d < 16, (digitSymbol d).toNat ≤ 0x46 := by decide

theorem hexNumeral_digits (n : Nat) : ∀ b ∈ hexNumeral n, isHexDigit b = true ∧ b.toNat ≤ 0x46 := by
  intro b hb
  obtain ⟨d, hd, rfl⟩ := numeral_mem 16 _ _ (by decide) b hb
  exact ⟨(digitSymbol_hex hd).1, digitSymbol_le d hd⟩

theorem decValue_decNumeral (n : Nat) : decValue (decNumeral n) = n :=
  numeralValue_numeral (by decide) (fun _ hd => (digitSymbol_dec hd).2) (Nat.lt_succ_self n)

theorem hexValue_hexNumeral (n : Nat) : hexValue (hexNumeral n) = n :=
  numeralValue_numeral (by decide) (fun _ hd => (digitSymbol_hex hd).2) (Nat.lt_succ_self n)

/-- Settles O8: the digits, value, length and first digit of a numeral, at the bases 10 and 16. -/
theorem numeralsAreShortest : Obligations.NumeralsAreShortest := by
  refine fun n => ⟨⟨decNumeral_digits n, decValue_decNumeral n, ?_⟩, ⟨hexNumeral_digits n, hexValue_hexNumeral n, ?_⟩,
    ?_, fun hn => ⟨?_, ?_⟩⟩
  · rintro t hne hdigits rfl
    exact numeral_length_le_of_value decVal_lt hne hdigits _
  · rintro t hne hdigits rfl
    exact numeral_length_le_of_value hexVal_lt hne hdigits _
  · rintro rfl
    exact ⟨rfl, rfl⟩
  · exact numeral_head?_ne_zero (by decide) (by decide) (Nat.lt_succ_self n) hn
  · exact numeral_head?_ne_zero (by decide) (by decide) (Nat.lt_succ_self n) hn

end Sys2Proof.Machine
end

section
/-! PROOF. The packed identifier as a number (30_encoding.md R75 to R78). -/

namespace Sys2Proof.Machine

theorem toNat_pack (cls : BitVec 4) (ts : BitVec 32) (seq : BitVec 12) :
    (pack cls ts seq).toNat = cls.toNat * 2 ^ 44 + ts.toNat * 2 ^ 12 + seq.toNat := by
  have hts := ts.isLt
  have hseq := seq.isLt
  rw [pack_eq_append, BitVec.toNat_append, BitVec.toNat_append, BitVec.toNat_append,
    ← Nat.shiftLeft_add_eq_or_of_lt hseq, ← Nat.shiftLeft_add_eq_or_of_lt hts]
  simp only [BitVec.toNat_ofNat, Nat.zero_mod, Nat.zero_mul, Nat.zero_or, Nat.shiftLeft_eq]
  omega

/-- The fields of a word, packed again, are its low 48 bits. -/
theorem pack_fields (p : Word) : pack (pidClass p) (pidTimestamp p) (pidSequence p) = low48 p := by
  apply BitVec.eq_of_toNat_eq
  rw [toNat_pack, toNat_low48, pidClass, pidTimestamp, pidSequence, BitVec.extractLsb'_toNat,
    BitVec.extractLsb'_toNat, BitVec.extractLsb'_toNat, Nat.shiftRight_eq_div_pow, Nat.shiftRight_eq_div_pow,
    Nat.shiftRight_zero]
  omega

/-- The bits above a bound of the word are 0. -/
theorem extractLsb'_eq_zero_of_lt {p : Word} {i : Nat} (h : p.toNat < 2 ^ i) (n : Nat) : p.extractLsb' i n = 0 := by
  apply BitVec.eq_of_toNat_eq
  rw [BitVec.extractLsb'_toNat, Nat.shiftRight_eq_div_pow, Nat.div_eq_of_lt h]
  rfl

end Sys2Proof.Machine
end

section
/-! PROOF. ID2F: its answer by class, and its rendering (41_filename_codec.md R145 to R150). -/

namespace Sys2Proof.Machine

theorem id2f_of_class {p : Word} {c : Byte} (h : pidClass p = 0 ∧ c = letterM ∨ pidClass p = 1 ∧ c = letterG) :
    id2f p = (renderFilename c (pidTimestamp p).toNat (pidSequence p).toNat, true) := by
  rcases h with ⟨hclass, rfl⟩ | ⟨hclass, rfl⟩
  · rw [id2f, hclass]; rfl
  · rw [id2f, hclass]; rfl

theorem id2f_of_two_le {p : Word} (h : 2 ≤ (pidClass p).toNat) : id2f p = ([], false) := by
  obtain ⟨h0, h1⟩ := (two_le_toNat_iff _).mp h
  rw [id2f, classLetter, if_neg h0, if_neg h1]

/-- The classes below 2 are the two that have a letter. -/
theorem exists_letter {cls : BitVec 4} (h : cls.toNat ≤ 1) : ∃ c, cls = 0 ∧ c = letterM ∨ cls = 1 ∧ c = letterG := by
  have hclass : cls = 0 ∨ cls = 1 := by
    by_contra hne
    have := (two_le_toNat_iff cls).mpr (not_or.mp hne)
    omega
  rcases hclass with h0 | h1
  · exact ⟨letterM, .inl ⟨h0, rfl⟩⟩
  · exact ⟨letterG, .inr ⟨h1, rfl⟩⟩

theorem id2f_low48 (p : Word) : id2f (low48 p) = id2f p := by
  rw [id2f, id2f, pidClass_low48, pidTimestamp_low48, pidSequence_low48]

/-- Settles O29: both functions read fields of the low 48 bits alone. -/
theorem highBitsOfThePidAreIgnored : Obligations.HighBitsOfThePidAreIgnored :=
  fun p => ⟨(id2f_low48 p).symm, (id2c_low48 p).symm⟩

/-- Settles O17: a rendering is 5 bytes and two numerals of 1 to 10 and 1 to 3 digits. -/
theorem id2fRendersTheFilename : Obligations.Id2fRendersTheFilename := by
  intro s c t hclass ht
  have hrender : t = renderFilename c (pidTimestamp s.pidIn).toNat (pidSequence s.pidIn).toNat := ht
  have hlen := renderFilename_length c (pidTimestamp s.pidIn).toNat (pidSequence s.pidIn).toNat
  rw [← hrender] at hlen
  obtain ⟨hdmin, hdmax⟩ := decNumeral_length _ (pidTimestamp s.pidIn).isLt
  obtain ⟨hhmin, hhmax⟩ := hexNumeral_length _ (pidSequence s.pidIn).isLt
  have hmax : t.length ≤ 18 := by omega
  refine ⟨by omega, hmax, ?_⟩
  rw [exec_id2f, id2f_of_class hclass, ← hrender, State.finish_wbStr s t true hmax]
  rfl

/-- Settles O18: the empty string and the failure bit are written back. -/
theorem id2fRefusesOtherClasses : Obligations.Id2fRefusesOtherClasses := by
  intro s hclass
  rw [exec_id2f, id2f_of_two_le hclass, State.finish_wbStr s [] false (by decide)]
  rfl

end Sys2Proof.Machine
end

section
/-! PROOF. F2ID: its answers, and the range of its word (41_filename_codec.md R137 to R140). -/

namespace Sys2Proof.Machine

theorem f2id_cases (s : List Byte) :
    (∃ p, parseFilename s = some p ∧ f2id s = (p, true)) ∨ (parseFilename s = none ∧ f2id s = (0, false)) := by
  cases h : parseFilename s with
  | some p => exact .inl ⟨p, rfl, f2id_of_some h⟩
  | none => exact .inr ⟨rfl, f2id_of_none h⟩

theorem f2id_zero_of_fails {s : List Byte} (h : (f2id s).2 = false) : f2id s = (0, false) := by
  rcases f2id_cases s with ⟨p, -, hs⟩ | ⟨-, hs⟩
  · rw [hs] at h; cases h
  · exact hs

theorem c2id_zero_of_fails {s : List Byte} (h : (c2id s).2 = false) : c2id s = (0, false) := by
  rcases c2id_cases s with ⟨-, p, -, hs⟩ | ⟨-, -, hs⟩ | ⟨-, hs⟩
  · rw [hs] at h; cases h
  · exact hs
  · exact hs

theorem exec_f2id (s : State) :
    exec .f2id s = .next (s.wbWord (f2id s.stringOperand).1 (f2id s.stringOperand).2).finish := rfl

/-- Settles O30: the two word commands' write-back, and the sentinel of a failure. -/
theorem wordCommandsWriteBack : Obligations.WordCommandsWriteBack := by
  refine fun s => ⟨fun h => congrArg Prod.fst (f2id_zero_of_fails h), fun h => congrArg Prod.fst (c2id_zero_of_fails h),
    ?_, ?_⟩
  · rw [exec_f2id, State.finish_wbWord]; rfl
  · rw [exec_c2id, State.finish_wbWord]; rfl

/-- Settles O12: what is outside the language makes F2ID fail, and the sentinel is written back. -/
theorem f2idRefusesWhatIsNoFilename : Obligations.F2idRefusesWhatIsNoFilename := by
  intro s _ hno
  have hfails : (f2id s.stringOperand).2 = false :=
    Bool.eq_false_iff.mpr fun h => hno ((filenameLanguageIsAccepted s.stringOperand).mp h)
  rw [exec_f2id, f2id_zero_of_fails hfails, State.finish_wbWord]
  rfl

/-- The canonical form of a string by its segments (41_filename_codec.md R153): a missing fourth one counts as empty. -/
theorem canonFilename_join {a b c d s : List Byte} (ha : dot ∉ a) (hb : dot ∉ b) (hc : dot ∉ c)
    (hs : s = a ++ dot :: (b ++ dot :: c) ∧ d = [] ∨ s = a ++ dot :: (b ++ dot :: (c ++ dot :: d))) :
    canonFilename s = a ++ [dot] ++ decNumeral (decValue b) ++ [dot, letterA, dot] ++ hexNumeral (hexValue d) := by
  rcases hs with ⟨rfl, rfl⟩ | rfl
  · rw [canonFilename, splitN_join_three ha hb hc]; rfl
  · rw [canonFilename, splitN_join_four ha hb hc]

/-- The numbers an accepted string stands for: its word packs them, and its canonical form renders them. -/
theorem f2id_eq_some {s : List Byte} {p : Word} (h : f2id s = (p, true)) :
    ∃ cls c ts seq, (cls = 0 ∧ c = letterM ∨ cls = 1 ∧ c = letterG) ∧ 1 ≤ ts ∧ ts ≤ 0xFFFFFFFF ∧ seq ≤ 0xFFF
      ∧ p = pack cls (BitVec.ofNat 32 ts) (BitVec.ofNat 12 seq) ∧ canonFilename s = renderFilename c ts seq := by
  have hparse : parseFilename s = some p := by
    rcases f2id_cases s with ⟨p', hp, hs⟩ | ⟨-, hs⟩
    · exact hp.trans (congrArg (some ·.1) (hs.symm.trans h))
    · cases hs.symm.trans h
  obtain ⟨a, b, c, d, hsegs, hs⟩ := parseFilename_eq_some.mp hparse
  obtain ⟨ha, hb, hc⟩ := dot_notMem_of_parseSegments hsegs
  have hcanon := canonFilename_join ha hb hc hs
  obtain ⟨cls, _, _, hcls, hts, -, hseq, rfl⟩ := parseSegments_eq_some.mp hsegs
  obtain ⟨-, -, hmin, hmax, rfl⟩ := parseTimestamp_eq_some.mp hts
  obtain ⟨-, hle, rfl⟩ := parseSequence_eq_some.mp hseq
  rcases parseClass_eq_some.mp hcls with ⟨rfl, hclass⟩ | ⟨rfl, hclass⟩
  · exact ⟨cls, letterM, _, _, .inl ⟨hclass, rfl⟩, hmin, hmax, hle, rfl, hcanon⟩
  · exact ⟨cls, letterG, _, _, .inr ⟨hclass, rfl⟩, hmin, hmax, hle, rfl, hcanon⟩

/-- The fields of an accepted string's word, and its range (41_filename_codec.md R139). -/
theorem f2id_word {s : List Byte} {p : Word} (h : f2id s = (p, true)) :
    (pidClass p = 0 ∨ pidClass p = 1) ∧ pidTimestamp p ≠ 0 ∧ 0x1000 ≤ p.toNat ∧ p.toNat < 2 ^ 45 := by
  obtain ⟨cls, c, ts, seq, hclass, hmin, hmax, hle, rfl, -⟩ := f2id_eq_some h
  have hts : (BitVec.ofNat 32 ts).toNat = ts := by rw [BitVec.toNat_ofNat]; omega
  have hcls : cls = 0 ∨ cls = 1 := hclass.imp And.left And.left
  have hcls' : cls.toNat ≤ 1 := by rcases hcls with rfl | rfl <;> decide
  have hseq := (BitVec.ofNat 12 seq).isLt
  rw [pidClass_pack, pidTimestamp_pack, toNat_pack, hts]
  refine ⟨hcls, fun h0 => ?_, by omega, by omega⟩
  have hzero : ts = 0 := by rw [← hts, h0]; rfl
  omega

/-- Settles O15: the range bounds the word's high bits. -/
theorem f2idResultIsValidOrZero : Obligations.F2idResultIsValidOrZero := by
  refine fun s => ⟨fun h => ?_, fun h => congrArg Prod.fst (f2id_zero_of_fails h)⟩
  obtain ⟨hclass, htime, hmin, hmax⟩ := f2id_word (Prod.ext rfl h : f2id s = ((f2id s).1, true))
  have hhigh := extractLsb'_eq_zero_of_lt (i := 48) (hmax.trans (by decide)) 16
  refine ⟨?_, extractLsb'_eq_zero_of_lt hmax 19, hmin, by omega⟩
  rw [validPid, hhigh, bne_iff_ne.mpr htime]
  rcases hclass with hclass | hclass <;> rw [hclass] <;> rfl

end Sys2Proof.Machine
end

section
/-! PROOF. F2ID and ID2F as inverses of each other (41_filename_codec.md R151 to R153). -/

namespace Sys2Proof.Machine

theorem renderFilename_eq (c : Byte) (ts seq : Nat) :
    renderFilename c ts seq = [c, dot] ++ decNumeral ts ++ [dot, letterA] ++ ([dot] ++ hexNumeral seq) := by
  simp [renderFilename]

/-- A rendering is a filename of its own numbers (41_filename_codec.md R151). -/
theorem f2id_renderFilename {cls : BitVec 4} {c : Byte} (hclass : cls = 0 ∧ c = letterM ∨ cls = 1 ∧ c = letterG)
    {ts : BitVec 32} (hts : ts ≠ 0) (seq : BitVec 12) :
    f2id (renderFilename c ts.toNat seq.toNat) = (pack cls ts seq, true) := by
  have hmin : 1 ≤ ts.toNat := Nat.one_le_iff_ne_zero.mpr fun h => hts (BitVec.eq_of_toNat_eq h)
  have hmax := ts.isLt
  have hseq := seq.isLt
  have hne : decNumeral ts.toNat ≠ [] := List.length_pos_iff.mp (decNumeral_length _ hmax).1
  have hfile := f2id_filename hclass hne (decNumeral_digits ts.toNat) (by rwa [decValue_decNumeral])
    (by rw [decValue_decNumeral]; omega) (fun b hb => (hexNumeral_digits seq.toNat b hb).1)
    (by rw [hexValue_hexNumeral]; omega) (.inl rfl)
  rwa [decValue_decNumeral, hexValue_hexNumeral, BitVec.ofNat_toNat, BitVec.ofNat_toNat, BitVec.setWidth_eq,
    BitVec.setWidth_eq, ← renderFilename_eq] at hfile

theorem f2id_id2f {p : Word} (hclass : (pidClass p).toNat ≤ 1) (htime : pidTimestamp p ≠ 0) :
    f2id (id2f p).1 = (low48 p, true) := by
  obtain ⟨c, hc⟩ := exists_letter hclass
  rw [id2f_of_class hc, f2id_renderFilename hc htime, pack_fields]

/-- Settles O19: a rendering with a timestamp is read back, and without one it has a timestamp of zeros only. -/
theorem parseAfterFormat : Obligations.ParseAfterFormat := by
  refine fun p => ⟨fun hclass => ⟨f2id_id2f hclass, fun htime => ?_⟩, fun hclass => ?_⟩
  · obtain ⟨c, hc⟩ := exists_letter hclass
    rw [id2f_of_class hc, htime]
    exact leadingZerosDoNotCount.2 c 1 _
  · rw [id2f_of_two_le hclass]
    exact ⟨rfl, rfl⟩

/-- ID2F renders the fields of F2ID's word (41_filename_codec.md R152). -/
theorem id2f_of_f2id {s : List Byte} {p : Word} (h : f2id s = (p, true)) : id2f p = (canonFilename s, true) := by
  obtain ⟨cls, c, ts, seq, hclass, -, hmax, hle, rfl, hcanon⟩ := f2id_eq_some h
  rw [hcanon, id2f_of_class (c := c) (by rwa [pidClass_pack]), pidTimestamp_pack, pidSequence_pack,
    BitVec.toNat_ofNat, BitVec.toNat_ofNat, Nat.mod_eq_of_lt (by omega), Nat.mod_eq_of_lt (by omega)]

/-- Settles O20: the round trip through the word is the canonical form. -/
theorem formatAfterParse : Obligations.FormatAfterParse := by
  intro s p h
  have hformat := id2f_of_f2id h
  refine ⟨hformat, ?_⟩
  rw [h, hformat]

/-- Settles O21: a canonical string is rendered from its own word, and a rendering is the canonical form of itself. -/
theorem canonicalFilenamesAreTheRenderings : Obligations.CanonicalFilenamesAreTheRenderings := by
  intro s
  constructor
  · rintro ⟨hok, hcanon⟩
    have hs : f2id s = ((f2id s).1, true) := Prod.ext rfl hok
    obtain ⟨hclass, htime, -⟩ := f2id_word hs
    refine ⟨(f2id s).1, ?_, htime, ?_⟩
    · rcases hclass with h | h <;> rw [h] <;> decide
    · rw [id2f_of_f2id hs, hcanon]
  · rintro ⟨p, hclass, htime, rfl⟩
    have hparse := f2id_id2f hclass htime
    have hformat := id2f_of_f2id hparse
    rw [id2f_low48] at hformat
    exact ⟨by rw [hparse], (congrArg Prod.fst hformat).symm⟩

end Sys2Proof.Machine
end

section
/-! PROOF. Host reads (10_state.md R35, R40; 40_host_interface.md R102): what each register number names, when a read is
drawn, and what a write leaves of the reads. -/

namespace Sys2Proof.Machine

/-! ### What a register number names -/

/-- The register map by its numbers (10_state.md R24). -/
theorem regOf_eq (lIn : Nat) (r : RegNum) :
    regOf lIn r
      = if r = 0x00 then .cmd
        else if r = 0x01 then .status
        else if r = 0x02 then .inLen
        else if r = 0x03 then .outLen
        else if r = 0x04 then .pidIn
        else if r = 0x05 then .pidOut
        else if r = 0x06 then .param
        else if 0x40 ≤ r.toNat ∧ r.toNat < 0x40 + lIn then .inBuf (r.toNat - 0x40)
        else if 0x80 ≤ r.toNat ∧ r.toNat ≤ 0x91 then .outBuf (r.toNat - 0x80)
        else .reserved := by
  have hwindow : r.toNat < outBufBase + Config.outBufSize ↔ r.toNat ≤ 0x91 := Nat.lt_succ_iff
  simp only [regOf, hwindow]
  rfl

/-- The register map as a relation: which number names which register. -/
inductive Names (lIn : Nat) : RegNum → Reg → Prop where
  | cmd : Names lIn 0x00 .cmd
  | status : Names lIn 0x01 .status
  | inLen : Names lIn 0x02 .inLen
  | outLen : Names lIn 0x03 .outLen
  | pidIn : Names lIn 0x04 .pidIn
  | pidOut : Names lIn 0x05 .pidOut
  | param : Names lIn 0x06 .param
  | inBuf {r : RegNum} (hlo : 0x40 ≤ r.toNat) (hhi : r.toNat < 0x40 + lIn) : Names lIn r (.inBuf (r.toNat - 0x40))
  | outBuf {r : RegNum} (hlo : 0x80 ≤ r.toNat) (hhi : r.toNat ≤ 0x91) : Names lIn r (.outBuf (r.toNat - 0x80))
  | reserved {r : RegNum} (hlow : 0x07 ≤ r.toNat) (hwindow : ¬ (0x80 ≤ r.toNat ∧ r.toNat ≤ 0x91)) :
      Names lIn r .reserved

theorem names_regOf (lIn : Nat) (r : RegNum) : Names lIn r (regOf lIn r) := by
  have hnumber : r = 0x00 ∨ r = 0x01 ∨ r = 0x02 ∨ r = 0x03 ∨ r = 0x04 ∨ r = 0x05 ∨ r = 0x06 ∨ 0x07 ≤ r.toNat := by
    bv_omega
  rcases hnumber with rfl | rfl | rfl | rfl | rfl | rfl | rfl | hlow
  · exact .cmd
  · exact .status
  · exact .inLen
  · exact .outLen
  · exact .pidIn
  · exact .pidOut
  · exact .param
  · rw [regOf_high lIn r hlow]
    split_ifs with hin hout
    · exact .inBuf hin.1 hin.2
    · exact .outBuf hout.1 (Nat.le_of_lt_succ hout.2)
    · exact .reserved hlow fun h => hout ⟨h.1, Nat.lt_succ_of_le h.2⟩

/-- The number of a register, for all but the reserved ones. -/
def regNumber : Reg → RegNum
  | .cmd => 0x00
  | .status => 0x01
  | .inLen => 0x02
  | .outLen => 0x03
  | .pidIn => 0x04
  | .pidOut => 0x05
  | .param => 0x06
  | .inBuf i => BitVec.ofNat 8 (0x40 + i)
  | .outBuf i => BitVec.ofNat 8 (0x80 + i)
  | .reserved => 0xFF

theorem regNumber_of_names {lIn : Nat} {r : RegNum} {reg : Reg} (h : Names lIn r reg) (hreg : reg ≠ .reserved) :
    regNumber reg = r := by
  have hsub {base : Nat} (hbase : base ≤ r.toNat) : BitVec.ofNat 8 (base + (r.toNat - base)) = r := by
    rw [Nat.add_sub_cancel' hbase, BitVec.ofNat_toNat, BitVec.setWidth_eq]
  cases h with
  | inBuf hlo _ => exact hsub hlo
  | outBuf hlo _ => exact hsub hlo
  | reserved _ _ => exact absurd rfl hreg
  | _ => rfl

/-- Two numbers name one register only if both are reserved. -/
theorem regOf_ne {lIn : Nat} {r r' : RegNum} (hne : r' ≠ r) (hr : regOf lIn r ≠ .reserved) :
    regOf lIn r' ≠ regOf lIn r := by
  intro h
  have hr' := regNumber_of_names (h ▸ names_regOf lIn r') hr
  exact hne (hr'.symm.trans (regNumber_of_names (names_regOf lIn r) hr))

/-- The numbers of the result registers (10_state.md R40). -/
theorem isResultReg_of_names {lIn : Nat} (hl : lIn ≤ 64) {r : RegNum} {reg : Reg} (h : Names lIn r reg) :
    isResultReg reg = true ↔ r = 0x03 ∨ r = 0x05 ∨ 0x80 ≤ r.toNat ∧ r.toNat ≤ 0x91 := by
  have hother (hr : 0x07 ≤ r.toNat) (hwindow : ¬ (0x80 ≤ r.toNat ∧ r.toNat ≤ 0x91)) :
      ¬ (r = 0x03 ∨ r = 0x05 ∨ 0x80 ≤ r.toNat ∧ r.toNat ≤ 0x91) := by
    rintro (rfl | rfl | hout)
    · exact absurd hr (by decide)
    · exact absurd hr (by decide)
    · exact hwindow hout
  cases h with
  | inBuf hlo hhi => exact iff_of_false nofun (hother (by omega) (by omega))
  | outBuf hlo hhi => exact iff_of_true rfl (.inr (.inr ⟨hlo, hhi⟩))
  | reserved hr hwindow => exact iff_of_false nofun (hother hr hwindow)
  | _ => decide

/-! ### A read, drawn or not -/

section
variable {s : State} {r : RegNum}

theorem State.hostOp_read (s : State) (r : RegNum) : s.hostOp (.read r) = s.hostRead r := rfl

theorem State.readIsDrawn_eq_false_of_idle (hidle : s.phase = .idle) (reg : Reg) : s.readIsDrawn reg = false := by
  simp [State.readIsDrawn, busyBit, hidle]

theorem State.readIsDrawn_eq_false_of_isResultReg {reg : Reg} (h : isResultReg reg = false) :
    s.readIsDrawn reg = false := by
  rw [State.readIsDrawn, h, Bool.and_false]

theorem State.readValue_of_not_drawn (h : s.readIsDrawn (regOf s.lIn r) = false) :
    s.readValue r = s.storedValue (regOf s.lIn r) := by
  simp [State.readValue, h]

theorem State.hostRead_of_not_drawn (h : s.readIsDrawn (regOf s.lIn r) = false) :
    s.hostRead r = { s with reads := s.reads ++ [⟨r, s.storedValue (regOf s.lIn r)⟩] } := by
  rw [State.hostRead, State.readValue_of_not_drawn h, if_neg (by rw [h]; decide)]

theorem State.readValue_of_idle (hidle : s.phase = .idle) (r : RegNum) :
    s.readValue r = s.storedValue (regOf s.lIn r) :=
  State.readValue_of_not_drawn (State.readIsDrawn_eq_false_of_idle hidle _)

theorem State.hostRead_of_drawn (hbusy : s.phase = .busy) (h : isResultReg (regOf s.lIn r) = true) :
    s.hostRead r
      = { s with reads := s.reads ++ [⟨r, s.drawnValue (regOf s.lIn r)⟩], draws := s.draws + 1 } := by
  have hdrawn : s.readIsDrawn (regOf s.lIn r) = true := by simp [State.readIsDrawn, busyBit, hbusy, h]
  rw [State.hostRead, State.readValue, if_pos hdrawn, if_pos hdrawn]

end

/-- Settles O38: such a read is not drawn, and the stored value goes by the register map. -/
theorem hostReadReturnsTheStoredValue : Obligations.HostReadReturnsTheStoredValue := by
  intro s r hr hcap
  obtain ⟨-, hmax⟩ := (lInLegal_iff s.lIn).mp hcap
  have hstored : s.readIsDrawn (regOf s.lIn r) = false := by
    rcases hr with hidle | ⟨h3, h5, hwindow⟩
    · exact State.readIsDrawn_eq_false_of_idle hidle _
    · refine State.readIsDrawn_eq_false_of_isResultReg (Bool.eq_false_iff.mpr fun h => ?_)
      rcases (isResultReg_of_names hmax (names_regOf s.lIn r)).mp h with h | h | h
      · exact h3 h
      · exact h5 h
      · exact hwindow h
  rw [State.hostOp_read, State.hostRead_of_not_drawn hstored, regOf_eq]
  simp only [apply_ite s.storedValue]
  rfl

/-- Settles O39: the three kinds of result register and the width each is drawn in. -/
theorem resultReadWhileBusyIsUnspecified : Obligations.ResultReadWhileBusyIsUnspecified := by
  intro s r hbusy hcap
  obtain ⟨-, hmax⟩ := (lInLegal_iff s.lIn).mp hcap
  have hresult := isResultReg_of_names hmax (names_regOf s.lIn r)
  constructor
  · intro h5
    rw [State.hostOp_read, State.hostRead_of_drawn hbusy (hresult.mpr (.inr (.inl h5))), h5]
    rfl
  · rintro (h3 | hwindow)
    · rw [State.hostOp_read, State.hostRead_of_drawn hbusy (hresult.mpr (.inl h3)), h3]
      rfl
    · rw [State.hostOp_read, State.hostRead_of_drawn hbusy (hresult.mpr (.inr (.inr hwindow))),
        regOf_outBuf s.lIn hmax r hwindow.1 hwindow.2]
      rfl

/-- Settles O41: beside the seven numbers and the two windows every number is reserved. -/
theorem reservedNumbersReadZeroAndIgnoreWrites : Obligations.ReservedNumbersReadZeroAndIgnoreWrites := by
  intro s r d hcap hr
  obtain ⟨-, hmax⟩ := (lInLegal_iff s.lIn).mp hcap
  have hlow : ∀ n : RegNum, n.toNat < 0x07 → r ≠ n := by rintro n hn rfl; omega
  have hinBuf : ¬ (0x40 ≤ r.toNat ∧ r.toNat < 0x40 + s.lIn) := by omega
  have hreserved : regOf s.lIn r = .reserved := regOf_reserved s.lIn r (by omega) hinBuf (by omega)
  constructor
  · have hstored : s.readIsDrawn (regOf s.lIn r) = false :=
      State.readIsDrawn_eq_false_of_isResultReg (by rw [hreserved]; rfl)
    rw [State.hostOp_read, State.hostRead_of_not_drawn hstored, hreserved]
    rfl
  · exact s.hostWrite_ignored d (hlow _ (by decide)) (hlow _ (by decide)) (hlow _ (by decide)) hinBuf

/-! ### A read after a write -/

section
variable {s : State} {reg : Reg}

theorem State.storedValue_with_inLen (h : reg ≠ .inLen) (v : BitVec 8) :
    State.storedValue { s with inLen := v } reg = s.storedValue reg := by
  cases reg with
  | inLen => exact absurd rfl h
  | _ => rfl

theorem State.storedValue_with_pidIn (h : reg ≠ .pidIn) (v : Word) :
    State.storedValue { s with pidIn := v } reg = s.storedValue reg := by
  cases reg with
  | pidIn => exact absurd rfl h
  | _ => rfl

theorem State.storedValue_with_inBuf {i : Nat} (h : reg ≠ .inBuf i) (v : Byte) :
    State.storedValue { s with inBuf := s.inBuf.set i v } reg = s.storedValue reg := by
  cases reg with
  | inBuf j =>
    have hne : i ≠ j := fun hij => h (by rw [hij])
    simp [State.storedValue, List.getElem?_set_ne hne]
  | param => simp [State.storedValue, State.lIn]
  | _ => rfl

/-- Only CMD's number can start a command. -/
theorem State.hostWrite_phase {r : RegNum} (hr : r ≠ 0x00) (d : Word) : (s.hostWrite r d).phase = s.phase := by
  rcases s.hostWrite_cases r d with h | ⟨-, h0, -⟩ | ⟨-, h⟩ | ⟨-, h⟩ | ⟨-, i, h⟩
  · rw [h]
  · exact absurd h0 hr
  · rw [h]
  · rw [h]
  · rw [h]

end

/-- A write to a number other than CMD's leaves the stored values of all other numbers (20_memory.md R61). -/
theorem State.storedValue_hostWrite_ne {s : State} {r r' : RegNum} (hidle : s.phase = .idle) (hr : r ≠ 0x00)
    (hne : r' ≠ r) (d : Word) :
    (s.hostWrite r d).storedValue (regOf s.lIn r') = s.storedValue (regOf s.lIn r') := by
  by_cases h2 : r = 0x02
  · subst h2
    rw [show (0x02 : RegNum) = inLenNumber from rfl, State.hostWrite_inLen hidle]
    exact State.storedValue_with_inLen (regOf_ne (r := 0x02) hne (by exact nofun)) _
  by_cases h4 : r = 0x04
  · subst h4
    rw [show (0x04 : RegNum) = pidInNumber from rfl, State.hostWrite_pidIn hidle]
    exact State.storedValue_with_pidIn (regOf_ne (r := 0x04) hne (by exact nofun)) _
  by_cases hwindow : 0x40 ≤ r.toNat ∧ r.toNat < 0x40 + s.lIn
  · have hreg := regOf_inBuf s.lIn r hwindow.1 hwindow.2
    rw [State.hostWrite_inBuf hidle hwindow.1 hwindow.2]
    exact State.storedValue_with_inBuf (hreg ▸ regOf_ne hne (by rw [hreg]; exact nofun)) _
  · rw [s.hostWrite_ignored d hr h2 h4 hwindow]

/-- Settles O40: a write changes the stored value of its own number alone. -/
theorem operandWriteIsReadBack : Obligations.OperandWriteIsReadBack := by
  intro s r r' d hidle _ hr
  have hread (n : RegNum) : (s.hostWrite r d).readValue n = (s.hostWrite r d).storedValue (regOf s.lIn n) := by
    rw [State.readValue_of_idle (by rw [State.hostWrite_phase hr, hidle]), State.hostWrite_lIn]
  rw [State.hostOp_write, hread, hread, ← BitVec.setWidth_eq_extractLsb' (by decide)]
  refine ⟨?_, ?_, fun hne => ?_⟩
  · rintro (rfl | ⟨hlo, hhi⟩)
    · rw [show (0x02 : RegNum) = inLenNumber from rfl, State.hostWrite_inLen hidle]
      rfl
    · have hindex : r.toNat - 0x40 < s.inBuf.length := by unfold State.lIn at hhi; omega
      rw [State.hostWrite_inBuf hidle hlo hhi, regOf_inBuf s.lIn r hlo hhi]
      simp [State.storedValue, hindex]
  · rintro rfl
    rw [show (0x04 : RegNum) = pidInNumber from rfl, State.hostWrite_pidIn hidle]
    rfl
  · rw [State.storedValue_hostWrite_ne hidle hr hne, State.readValue_of_idle hidle]

end Sys2Proof.Machine
end

section
/-! PROOF. STATUS, the host's pseudo-operations and Reset (10_state.md R26, R28; 30_encoding.md R87;
70_reset_and_hazards.md R220, R222). -/

namespace Sys2Proof.Machine

/-! ### STATUS -/

/-- The layout of the STATUS byte, for every value of its fields. -/
theorem statusLayout : ∀ (cause : BitVec 2) (ok done busy : Bool),
    let b : Byte := 0#2 ++ cause ++ 0#1 ++ BitVec.ofBool ok ++ BitVec.ofBool done ++ BitVec.ofBool busy
    b.getLsbD 0 = busy ∧ b.getLsbD 1 = done ∧ b.getLsbD 2 = ok ∧ b.getLsbD 3 = false
      ∧ b.extractLsb' 4 2 = cause ∧ b.extractLsb' 6 2 = 0 := by decide

theorem busyBit_eq_decide (s : State) : busyBit s = decide (s.phase = .busy) := by
  cases h : s.phase <;> simp [busyBit, h]

/-- Settles O42: the byte's layout, and STATUS as a read-only register. -/
theorem statusByteFields : Obligations.StatusByteFields := by
  intro s d
  obtain ⟨hbusy, hdone, hok, hzero, hcause, hhigh⟩ := statusLayout (causeCode s.cause) s.ok s.done (busyBit s)
  refine ⟨hbusy.trans (busyBit_eq_decide s), hdone, hok, hzero, hcause, hhigh, rfl, rfl, rfl, rfl, ?_⟩
  exact s.hostWrite_ignored (r := 0x01) d (by decide) (by decide) (by decide) fun h => absurd h.1 (by decide)

/-- Settles O53: BUSY fixes the other fields; while IDLE, DONE and CAUSE fix OK. -/
theorem statusReadsOneOfSixBytes : Obligations.StatusReadsOneOfSixBytes := by
  rintro s ⟨hbusy, hok, hdone⟩
  cases hp : s.phase with
  | busy =>
    obtain ⟨hd, ho, hc⟩ := hbusy hp
    rw [statusByte_accepted hp hd ho hc]
    decide
  | idle =>
    have hbyte : s.statusByte
        = 0#2 ++ causeCode s.cause ++ 0#1 ++ BitVec.ofBool s.ok ++ BitVec.ofBool s.done ++ BitVec.ofBool false := by
      rw [State.statusByte, busyBit, hp]; rfl
    have hokBit : s.ok = (s.done && s.cause = .none) := by rw [Bool.eq_iff_iff, hok]; simp
    rw [hbyte, hokBit]
    cases hd : s.done with
    | false => rw [hdone hd]; decide
    | true => cases s.cause <;> decide

/-- STATUS after Reset, whatever the capacity and the host (70_reset_and_hazards.md R222). -/
theorem statusByte_of_reset {s : State} (hp : s.phase = .idle) (hd : s.done = false) (ho : s.ok = false)
    (hc : s.cause = .none) : s.statusByte = 0x00 :=
  (statusByte_congr (t := State.reset) hp hd ho hc).trans (by decide)

/-! ### WAIT, GETS and Reset -/

theorem State.hostRead_status (s : State) :
    s.hostRead statusNumber = { s with reads := s.reads ++ [⟨0x01, s.statusByte.setWidth 64⟩] } :=
  State.hostRead_of_not_drawn (State.readIsDrawn_eq_false_of_isResultReg rfl)

/-- Settles O44: the bit of STATUS that WAIT reads is DONE. -/
theorem waitEndsExactlyOnDone : Obligations.WaitEndsExactlyOnDone := by
  intro s
  have hbit : (s.readValue statusNumber).getLsbD 1 = s.done := by
    rw [State.readValue_status, BitVec.getLsbD_setWidth, statusByte_done]; rfl
  rw [State.hostOp, hbit, State.hostRead_status]
  split_ifs <;> rfl

/-- The reads of GETS, for an OUT_LEN within OUT_BUF: the register space does not cut them off. -/
theorem getsReads_eq {n : Nat} (hn : n ≤ Config.outBufSize) :
    getsReads n = (List.range n).map fun i => HostOp.read (BitVec.ofNat 8 (0x80 + i)) := by
  have hmin : min n (256 - outBufBase) = n := Nat.min_eq_left (hn.trans (by decide))
  rw [getsReads, windowNumbers, hmin, List.map_map]
  rfl

/-- Settles O45: OUT_LEN is read as it is stored, and it is at most 18. -/
theorem getsReadsTheOutputString : Obligations.GetsReadsTheOutputString := by
  rintro s hidle ⟨-, hlen, -⟩
  have hreg : regOf s.lIn outLenNumber = .outLen := rfl
  have hvalue : s.readValue outLenNumber = s.outLen.setWidth 64 := State.readValue_of_idle hidle _
  have hread : s.hostRead outLenNumber = { s with reads := s.reads ++ [⟨0x03, s.outLen.setWidth 64⟩] } :=
    State.hostRead_of_not_drawn (State.readIsDrawn_eq_false_of_idle hidle _)
  rw [State.hostOp, hread, hvalue, BitVec.toNat_setWidth_of_le (by decide), getsReads_eq hlen]

theorem State.hostOp_reset (s : State) : s.hostOp .reset = s.blockReset := rfl

/-- Settles O43: what Reset writes, and that an idle engine's turn passes. -/
theorem resetSetsEveryRegister : Obligations.ResetSetsEveryRegister := by
  intro s
  rw [State.hostOp_reset]
  exact ⟨rfl, s.blockReset_lIn, statusByte_of_reset rfl rfl rfl rfl, rfl⟩

theorem getD_replicate_zero (n i : Nat) : (List.replicate n (0 : Byte)).getD i 0 = 0 := by
  rw [List.getD_eq_getElem?_getD, List.getElem?_replicate]
  split_ifs <;> rfl

/-- Settles O59: no read is drawn after reset, and the two windows hold zeros. -/
theorem readsAfterReset : Obligations.ReadsAfterReset := by
  intro n _
  have hparam : (State.resetWith n).lIn = n := List.length_replicate
  have hstatus : (State.resetWith n).readValue statusNumber = 0 := by
    rw [State.readValue_status, statusByte_of_reset rfl rfl rfl rfl]; rfl
  have hread : (State.resetWith n).readValue paramNumber = BitVec.ofNat 64 n := by rw [State.readValue_param, hparam]
  refine ⟨hstatus, rfl, rfl, hread, fun r hr => ?_⟩
  rw [State.readValue_of_idle rfl]
  have hnames := names_regOf (State.resetWith n).lIn r
  revert hnames
  generalize regOf (State.resetWith n).lIn r = reg
  intro hnames
  cases hnames with
  | inBuf _ _ => exact congrArg (BitVec.setWidth 64) (getD_replicate_zero n _)
  | outBuf _ _ => exact congrArg (BitVec.setWidth 64) (getD_replicate_zero Config.outBufSize _)
  | reserved _ _ => rfl
  | _ => exact absurd hr (by decide)

theorem statusLegal_of_clear {s : State} (hd : s.done = false) (ho : s.ok = false) (hc : s.cause = .none) :
    StatusLegal s := by
  refine ⟨fun _ => ⟨hd, ho, hc⟩, ?_, fun _ => hc⟩
  rw [ho, hd]
  simp

theorem resultsLegal_of_zero {s : State} (hpid : s.pidOut = 0) (hlen : s.outLen = 0)
    (hbuf : s.outBuf = List.replicate Config.outBufSize 0) : ResultsLegal s := by
  unfold ResultsLegal
  rw [hpid, hlen, hbuf]
  decide

/-- Settles O58: the reset state is idle with nothing done and all results 0. -/
theorem resetStateIsLegal : Obligations.ResetStateIsLegal := by
  intro n hn
  have hcap : CapacityLegal (State.resetWith n) := (congrArg lInLegal List.length_replicate).trans hn
  exact ⟨statusLegal_of_clear rfl rfl rfl, hcap, resultsLegal_of_zero rfl rfl rfl, nofun, nofun⟩

end Sys2Proof.Machine
end

section
/-! PROOF. Turns (40_host_interface.md R100, R108; log entries 1, 2): what a step is by whose turn it is, and what it can
change while IDLE and while BUSY. -/

namespace Sys2Proof.Machine

/-! ### A step by whose turn it is -/

section
variable {s : State}

theorem step_engine_busy (hturn : s.nextAgent = .engine) (hbusy : s.phase = .busy) :
    step s = exec (instrOfOp s.lop) { s with schedule := s.schedule.tail } := by
  simp [step, State.takeTurn, hturn, State.engineTurn, hbusy, State.complete]

theorem step_engine_idle (hturn : s.nextAgent = .engine) (hidle : s.phase = .idle) :
    step s = .next { s with schedule := s.schedule.tail } := by
  simp [step, State.takeTurn, hturn, State.engineTurn, hidle]

theorem step_host (hturn : s.nextAgent = .host) :
    step s = .next { s with schedule := s.schedule.tail }.hostTurn := by
  simp [step, State.takeTurn, hturn]

theorem step_host_nil (hturn : s.nextAgent = .host) (hhost : s.host = []) :
    step s = .next { s with schedule := s.schedule.tail } := by
  rw [step_host hturn, State.hostTurn, hhost]

theorem step_host_cons (hturn : s.nextAgent = .host) {op : HostOp} {rest : List HostOp} (hhost : s.host = op :: rest) :
    step s = .next ({ s with schedule := s.schedule.tail, host := rest }.hostOp op) := by
  rw [step_host hturn, State.hostTurn, hhost]

theorem nextAgent_of_idle (hschedule : s.schedule = []) (hidle : s.phase = .idle) : s.nextAgent = .host := by
  simp [State.nextAgent, hschedule, hidle]

theorem nextAgent_of_busy (hschedule : s.schedule = []) (hbusy : s.phase = .busy) : s.nextAgent = .engine := by
  simp [State.nextAgent, hschedule, hbusy]

theorem nextAgent_cons {a : Agent} {rest : List Agent} (hschedule : s.schedule = a :: rest) : s.nextAgent = a := by
  simp [State.nextAgent, hschedule]

end

/-- A command answers a next state, IDLE with DONE = 1 and OK and CAUSE by a success bit. -/
theorem exec_completes (i : Instr) (s : State) :
    ∃ t k, exec i s = .next t ∧ t.phase = .idle ∧ t.done = true ∧ t.ok = k ∧ t.cause = causeOfOk k := by
  rcases exec_cases i s with ⟨r, -, h⟩ | ⟨r, -, -, h⟩
  · exact ⟨_, r.2, h, rfl, rfl, rfl, rfl⟩
  · exact ⟨_, r.2, h, rfl, rfl, rfl, rfl⟩

/-- Settles O32: LOP's four values name the four commands, and a completed command has one of two STATUS bytes. -/
theorem engineStepRunsTheAcceptedCommand : Obligations.EngineStepRunsTheAcceptedCommand := by
  refine fun s hturn => ⟨fun hbusy => ?_, step_engine_idle hturn⟩
  have hstep := step_engine_busy hturn hbusy
  have hlop {op : BitVec 2} (h : s.lop = op) :
      step s = exec (instrOfOp op) { s with schedule := s.schedule.tail } := by rw [hstep, h]
  refine ⟨fun h => hlop h, fun h => hlop h, fun h => hlop h, fun h => hlop h, ?_⟩
  obtain ⟨t, k, hexec, hidle, hdone, hok, hcause⟩ :=
    exec_completes (instrOfOp s.lop) { s with schedule := s.schedule.tail }
  refine ⟨t, hstep.trans hexec, hidle, hdone, ?_⟩
  rw [statusByte_completed hidle hdone hok hcause]
  cases k
  · exact .inr rfl
  · exact .inl rfl

/-- Settles O34: the host's turn with an operation to issue, and without one. -/
theorem hostStepIssuesTheNextOperation : Obligations.HostStepIssuesTheNextOperation :=
  fun _ hturn => ⟨fun _ _ => step_host_cons hturn, step_host_nil hturn⟩

/-- Settles O50: either agent's turn answers a next state. -/
theorem noStepStops : Obligations.NoStepStops := by
  intro s
  cases hturn : s.nextAgent with
  | host => exact ⟨_, step_host hturn⟩
  | engine =>
    cases hp : s.phase with
    | idle => exact ⟨_, step_engine_idle hturn hp⟩
    | busy =>
      obtain ⟨t, -, hexec, -⟩ := exec_completes (instrOfOp s.lop) { s with schedule := s.schedule.tail }
      exact ⟨t, (step_engine_busy hturn hp).trans hexec⟩

/-- Settles O51: the turn is the host's, which has nothing to issue. -/
theorem endedProgramIsQuiescent : Obligations.EndedProgramIsQuiescent := by
  rintro s ⟨hhost, hidle⟩ hschedule
  rw [step_host_nil (nextAgent_of_idle hschedule hidle) hhost, hschedule, List.tail_nil, ← hschedule]

/-! ### A placed command -/

/-- The agent placed first in a schedule has the next turn, and the rest of the schedule follows. -/
theorem turnFirst_tail (a : Agent) (l : List Agent) : (turnFirst a l).tail = l := by
  cases l <;> rfl

theorem State.stageCommand_nextAgent (s : State) (i : Instr) : (s.stageCommand i).nextAgent = .engine := by
  unfold State.stageCommand State.nextAgent
  cases s.schedule <;> rfl

/-- Settles O33: the placed command is LOP's, and the turn is the engine's. -/
theorem placedCommandIsRunByTheNextStep : Obligations.PlacedCommandIsRunByTheNextStep := by
  intro s w i hw
  obtain ⟨-, -, -, hinstr⟩ := commandFields i
  have hplaced : s.withFetchWord 8 w = s.stageCommand i := by rw [State.withFetchWord, hw]
  have hlop : instrOfOp (s.stageCommand i).lop = i := hinstr
  rw [hplaced, step_engine_busy (s.stageCommand_nextAgent i) rfl, hlop]
  simp only [State.stageCommand, turnFirst_tail]

/-! ### While IDLE -/

/-- A host write to a number other than CMD's changes operand registers at most. -/
theorem State.hostWrite_operands (s : State) {r : RegNum} (hr : r ≠ 0x00) (d : Word) :
    ∃ n p b, s.hostWrite r d = { s with inLen := n, pidIn := p, inBuf := b } := by
  rcases s.hostWrite_cases r d with h | ⟨-, h0, -⟩ | ⟨-, h⟩ | ⟨-, h⟩ | ⟨-, i, h⟩
  · exact ⟨s.inLen, s.pidIn, s.inBuf, h⟩
  · exact absurd h0 hr
  · exact ⟨_, s.pidIn, s.inBuf, h⟩
  · exact ⟨s.inLen, _, s.inBuf, h⟩
  · exact ⟨s.inLen, s.pidIn, _, h⟩

/-- Settles O47: while IDLE only a write of CMD or Reset touches what is neither an operand nor the host's own. -/
theorem resultsHoldUntilTheNextCommand : Obligations.ResultsHoldUntilTheNextCommand := by
  intro s t hidle hhost h
  rcases step_cases h with ⟨hbusy, -, -⟩ | ⟨-, -, rfl⟩ | ⟨-, -, rfl⟩ | ⟨op, rest, hop, -, rfl⟩
  · cases hbusy.symm.trans hidle
  · exact ⟨hidle, rfl, rfl, rfl, rfl, rfl, rfl, rfl⟩
  · exact ⟨hidle, rfl, rfl, rfl, rfl, rfl, rfl, rfl⟩
  · obtain ⟨hreset, hcmd⟩ := hhost op rest hop
    rcases State.hostOp_cases { s with schedule := s.schedule.tail, host := rest } op with
      ⟨r, d, rfl, hwrite⟩ | ⟨rfl, -⟩ | ⟨hs, rs, n, hread⟩
    · have hr : r ≠ 0x00 := fun h0 => hcmd d (by rw [h0])
      obtain ⟨n, p, b, hoperands⟩ := State.hostWrite_operands _ hr d
      rw [hwrite, hoperands]
      exact ⟨hidle, rfl, rfl, rfl, rfl, rfl, rfl, rfl⟩
    · exact absurd rfl hreset
    · rw [hread]
      exact ⟨hidle, rfl, rfl, rfl, rfl, rfl, rfl, rfl⟩

/-! ### While BUSY -/

/-- The host's operations while BUSY, short of Reset, change only the host's own fields (40_host_interface.md R112). -/
theorem State.hostOp_busy {s : State} (hbusy : s.phase = .busy) {op : HostOp} (hop : op ≠ .reset) :
    ∃ h rs n, s.hostOp op = { s with host := h, reads := rs, draws := n } := by
  rcases s.hostOp_cases op with ⟨r, d, -, hwrite⟩ | ⟨hreset, -⟩ | hread
  · exact ⟨s.host, s.reads, s.draws, by rw [hwrite, s.hostWrite_busy r d hbusy]⟩
  · exact absurd hreset hop
  · exact hread

/-- Settles O48: the engine's turn and Reset end IDLE, and the host's other operations touch no register. -/
theorem operandsAreStableWhileBusy : Obligations.OperandsAreStableWhileBusy := by
  intro s t hbusy h hstill
  rcases step_cases h with ⟨-, -, hexec⟩ | ⟨hidle, -, -⟩ | ⟨-, -, rfl⟩ | ⟨op, rest, -, -, rfl⟩
  · obtain ⟨t', -, hexec', hidle, -⟩ := exec_completes (instrOfOp s.lop) { s with schedule := s.schedule.tail }
    rw [Host.Outcome.next.inj (hexec.symm.trans hexec')] at hstill
    cases hstill.symm.trans hidle
  · cases hidle.symm.trans hbusy
  · rfl
  · have hop : op ≠ .reset := by rintro rfl; cases hstill
    obtain ⟨hs, rs, n, hread⟩ := State.hostOp_busy (s := { s with schedule := s.schedule.tail, host := rest }) hbusy hop
    rw [hread]

/-- A command neither reads nor writes the model's own fields. -/
theorem exec_frame {i : Instr} {s u : State} (hexec : exec i s = .next u) (h : List HostOp) (c : List Agent)
    (rs : List ReadBeat) (n : Nat) :
    exec i { s with host := h, schedule := c, reads := rs, draws := n }
      = .next { u with host := h, schedule := c, reads := rs, draws := n } := by
  cases i <;> cases hexec <;> rfl

end Sys2Proof.Machine
end

section
/-! PROOF. Runs: every accepted command ends (40_host_interface.md R111, R114), and PUTS (30_encoding.md R87). -/

namespace Sys2Proof.Machine

/-! ### A command in progress ends -/

theorem reset_notMem_getsReads (n : Nat) : HostOp.reset ∉ getsReads n := by
  simp [getsReads]

/-- No operation puts a Reset into the host's list. -/
theorem State.reset_notMem_hostOp {s : State} (hbusy : s.phase = .busy) {op : HostOp} (hop : op ≠ .reset)
    (hhost : HostOp.reset ∉ s.host) : HostOp.reset ∉ (s.hostOp op).host := by
  cases op with
  | write r d => rwa [State.hostOp_write, s.hostWrite_busy r d hbusy]
  | read r => exact hhost
  | reset => exact absurd rfl hop
  | wait =>
    rw [waitEndsExactlyOnDone s]
    split_ifs
    · exact hhost
    · exact List.not_mem_cons_of_ne_of_not_mem nofun hhost
  | gets => exact fun h => (List.mem_append.mp h).elim (reset_notMem_getsReads _) hhost

/-- The host's turn while BUSY, with no Reset to come: the block is as it was, and there is still none to come. -/
theorem step_host_busy {s : State} (hturn : s.nextAgent = .host) (hbusy : s.phase = .busy)
    (hhost : HostOp.reset ∉ s.host) :
    ∃ h rs n, HostOp.reset ∉ h
      ∧ step s = .next { s with host := h, schedule := s.schedule.tail, reads := rs, draws := n } := by
  cases hlist : s.host with
  | nil => exact ⟨s.host, s.reads, s.draws, hhost, step_host_nil hturn hlist⟩
  | cons op rest =>
    rw [hlist, List.mem_cons, not_or] at hhost
    obtain ⟨hop, hrest⟩ := hhost
    have hnone := State.reset_notMem_hostOp (s := { s with schedule := s.schedule.tail, host := rest }) hbusy
      (Ne.symm hop) hrest
    obtain ⟨h, rs, n, hop'⟩ := State.hostOp_busy (s := { s with schedule := s.schedule.tail, host := rest }) hbusy
      (Ne.symm hop)
    rw [hop'] at hnone
    exact ⟨h, rs, n, hnone, (step_host_cons hturn hlist).trans (congrArg Host.Outcome.next hop')⟩

/-- On the engine's turn a command in progress ends in one step, as it does on the state it was accepted in. -/
theorem run_engine {s u : State} (hturn : s.nextAgent = .engine) (hbusy : s.phase = .busy)
    (hexec : exec (instrOfOp s.lop) s = .next u) : core.run 1 s = .next { u with
      host := s.host, schedule := s.schedule.tail, reads := s.reads, draws := s.draws } :=
  core_run_succ ((step_engine_busy hturn hbusy).trans (exec_frame hexec s.host s.schedule.tail s.reads s.draws)) 0

/-- A command in progress ends within one step more than the schedule is long, with its own results. -/
theorem run_completes {l : List Agent} {s u : State} (hl : s.schedule = l) (hbusy : s.phase = .busy)
    (hhost : HostOp.reset ∉ s.host) (hexec : exec (instrOfOp s.lop) s = .next u) :
    ∃ k h c rs n, k ≤ l.length + 1
      ∧ core.run k s = .next { u with host := h, schedule := c, reads := rs, draws := n } := by
  induction l generalizing s u with
  | nil => exact ⟨1, _, _, _, _, le_rfl, run_engine (nextAgent_of_busy hl hbusy) hbusy hexec⟩
  | cons a rest ih =>
    have hturn := nextAgent_cons hl
    cases a with
    | engine => exact ⟨1, _, _, _, _, by simp, run_engine hturn hbusy hexec⟩
    | host =>
      obtain ⟨h, rs, n, hnone, hstep⟩ := step_host_busy hturn hbusy hhost
      rw [hl, List.tail_cons] at hstep
      obtain ⟨k, h', c, rs', n', hk, hrun⟩ := ih (s := { s with host := h, schedule := rest, reads := rs, draws := n })
        rfl hbusy hnone (exec_frame hexec h rest rs n)
      exact ⟨k + 1, h', c, rs', n', Nat.succ_le_succ hk, (core_run_succ hstep k).trans hrun⟩

/-- A command leaves the operand registers, and its other results are as written back. -/
theorem exec_operands {i : Instr} {s u : State} (h : exec i s = .next u) :
    u.inLen = s.inLen ∧ u.pidIn = s.pidIn ∧ u.inBuf = s.inBuf := by
  rcases exec_cases i s with ⟨r, -, hx⟩ | ⟨r, -, -, hx⟩
  · cases hx.symm.trans h; exact ⟨rfl, rfl, rfl⟩
  · cases hx.symm.trans h; exact ⟨rfl, rfl, rfl⟩

/-- Settles O49: the host's turns keep the registers, and the engine's turn comes at the end of the schedule at the
latest. -/
theorem everyAcceptedCommandEndsWithItsResults : Obligations.EveryAcceptedCommandEndsWithItsResults := by
  intro s hbusy hhost
  obtain ⟨u, -, hexec, hidle, hdone, -⟩ := exec_completes (instrOfOp s.lop) s
  obtain ⟨hinLen, hpidIn, hinBuf⟩ := exec_operands hexec
  obtain ⟨k, h, c, rs, n, hk, hrun⟩ := run_completes rfl hbusy hhost hexec
  exact ⟨k, _, u, hk, hrun, hexec, hidle, hdone, rfl, rfl, rfl, rfl, rfl, hinLen, hpidIn, hinBuf⟩

/-! ### PUTS -/

/-- The host's writes of `t` into IN_BUF from index `i` on. -/
def bufWrites : Nat → List Byte → List HostOp
  | _, [] => []
  | i, b :: t => .write (BitVec.ofNat 8 (inBufBase + i)) (b.setWidth 64) :: bufWrites (i + 1) t

/-- PUTS of a string that fits writes its bytes in order, and then its length. -/
theorem putsOps_eq {t : List Byte} (ht : t.length ≤ 64) :
    putsOps t = bufWrites 0 t ++ [.write inLenNumber (BitVec.ofNat 64 t.length)] := by
  have hmin : min t.length (256 - inBufBase) = t.length := Nat.min_eq_left (ht.trans (by decide))
  have hzip (i : Nat) (t : List Byte) : bufWrites i t
      = (((List.range' i t.length).map fun j => BitVec.ofNat 8 (inBufBase + j)).zip t).map
          fun e => HostOp.write e.1 (e.2.setWidth 64) := by
    induction t generalizing i with
    | nil => rfl
    | cons b t ih => simp [bufWrites, List.range'_succ, ih]
  rw [putsOps, windowNumbers, hmin, List.range_eq_range', hzip]

/-- A host write of a byte of IN_BUF at its index. -/
theorem State.hostWrite_byte {s : State} (hidle : s.phase = .idle) (hl : s.lIn ≤ 64) {i : Nat} (hi : i < s.lIn)
    (b : Byte) :
    s.hostWrite (BitVec.ofNat 8 (inBufBase + i)) (b.setWidth 64) = { s with inBuf := s.inBuf.set i b } := by
  have hnum : (BitVec.ofNat 8 (inBufBase + i)).toNat = 0x40 + i := by
    rw [BitVec.toNat_ofNat, inBufBase]; omega
  have hbyte : (b.setWidth 64).setWidth 8 = b := by
    rw [BitVec.setWidth_setWidth_of_le _ (by decide), BitVec.setWidth_eq]
  rw [State.hostWrite_inBuf hidle (by omega) (by omega), hnum, Nat.add_sub_cancel_left, hbyte]

/-- The host's write while IDLE with no schedule is the next step. -/
theorem step_write {s : State} (hidle : s.phase = .idle) (hschedule : s.schedule = []) {r : RegNum} {d : Word}
    {rest : List HostOp} (hhost : s.host = .write r d :: rest) :
    step s = .next (State.hostWrite { s with host := rest } r d) := by
  rw [step_host_cons (nextAgent_of_idle hschedule hidle) hhost, hschedule, List.tail_nil, ← hschedule]
  rfl

/-- Writing a byte and then a string behind it is writing the longer string. -/
theorem splice_set {l t : List Byte} {i : Nat} (hi : i < l.length) (b : Byte) :
    (l.set i b).take (i + 1) ++ t ++ (l.set i b).drop (i + 1 + t.length)
      = l.take i ++ b :: t ++ l.drop (i + (b :: t).length) := by
  have htake : (l.set i b).take (i + 1) = l.take i ++ [b] := by
    rw [List.take_succ_eq_append_getElem (by rwa [List.length_set]), List.take_set_of_le le_rfl, List.getElem_set_self]
  have hdrop : (l.set i b).drop (i + 1 + t.length) = l.drop (i + (b :: t).length) := by
    rw [List.drop_set_of_lt (by omega), List.length_cons, Nat.add_assoc, Nat.add_comm 1]
  simp [htake, hdrop]

/-- The writes of a string from index `i` on, and then of IN_LEN, while IDLE with no schedule. -/
theorem run_bufWrites {t : List Byte} {i : Nat} {s : State} {v : Word} {rest : List HostOp} (hidle : s.phase = .idle)
    (hschedule : s.schedule = []) (hhost : s.host = bufWrites i t ++ .write inLenNumber v :: rest)
    (hfits : i + t.length ≤ s.lIn) (hl : s.lIn ≤ 64) :
    core.run (t.length + 1) s
      = .next { s with
          host := rest, inBuf := s.inBuf.take i ++ t ++ s.inBuf.drop (i + t.length), inLen := v.setWidth 8 } := by
  induction t generalizing i s with
  | nil =>
    have hstep := (step_write hidle hschedule hhost).trans
      (congrArg Host.Outcome.next (State.hostWrite_inLen (s := { s with host := rest }) hidle v))
    have hbuf : s.inBuf.take i ++ [] ++ s.inBuf.drop (i + ([] : List Byte).length) = s.inBuf := by simp
    rw [hbuf]
    exact core_run_succ hstep 0
  | cons b t ih =>
    rw [List.length_cons] at hfits
    have hi : i < s.inBuf.length := show i < s.lIn by omega
    have hhost' : s.host = .write (BitVec.ofNat 8 (inBufBase + i)) (b.setWidth 64)
        :: (bufWrites (i + 1) t ++ .write inLenNumber v :: rest) := hhost
    have hbyte := State.hostWrite_byte (s := { s with host := bufWrites (i + 1) t ++ .write inLenNumber v :: rest })
      hidle hl hi b
    have hstep := (step_write hidle hschedule hhost').trans (congrArg Host.Outcome.next hbyte)
    have hlength : (s.inBuf.set i b).length = s.lIn := List.length_set
    have hfits' : i + 1 + t.length ≤ (s.inBuf.set i b).length := by rw [hlength]; omega
    rw [← splice_set hi]
    exact (core_run_succ hstep _).trans (ih hidle hschedule rfl hfits' (hlength.trans_le hl))

/-- Settles O46: by induction on the string, of which each step writes a byte at its index. -/
theorem putsPresentsTheString : Obligations.PutsPresentsTheString := by
  intro s t rest hidle hschedule hhost hfits hcap
  obtain ⟨-, hmax⟩ := (lInLegal_iff s.lIn).mp hcap
  have hlen : (BitVec.ofNat 64 t.length).setWidth 8 = BitVec.ofNat 8 t.length := by
    apply BitVec.eq_of_toNat_eq
    simp only [BitVec.toNat_setWidth, BitVec.toNat_ofNat]
    omega
  rw [putsOps_eq (hfits.trans hmax), List.append_assoc, List.singleton_append] at hhost
  have hrun := run_bufWrites hidle hschedule hhost (by omega) hmax
  rw [List.take_zero, List.nil_append, Nat.zero_add, hlen] at hrun
  have htoNat : (BitVec.ofNat 8 t.length).toNat = t.length := by rw [BitVec.toNat_ofNat]; omega
  refine ⟨hrun, ?_⟩
  rw [State.stringOperand, htoNat, List.take_left]

end Sys2Proof.Machine
end

section
/-! PROOF. The invariants of the registers (10_state.md R27, R30 to R34; 40_host_interface.md R112; 60_exceptions.md
R203): a predicate that every operation on the registers keeps is kept by every step. -/

namespace Sys2Proof.Machine

/-- A predicate of the block that each named operation keeps, where it is performed. -/
structure KeptByOperations (P : State → Prop) : Prop where
  /-- The model's own fields are no registers. -/
  frame : ∀ (s : State) (h : List HostOp) (c : List Agent) (rs : List ReadBeat) (n : Nat), P s →
    P { s with host := h, schedule := c, reads := rs, draws := n }
  /-- Complete of F2ID and C2ID. -/
  word : ∀ (s : State) (t : List Byte) (r : Word × Bool), r = f2id t ∨ r = c2id t → P s → P (s.wbWord r.1 r.2).finish
  /-- Complete of ID2F and ID2C. -/
  string : ∀ (s : State) (p : Word) (r : List Byte × Bool), r = id2f p ∨ r = id2c p → P s →
    P (s.wbStr r.1 r.2).finish
  reject : ∀ (s : State) (k : Cause), k ≠ .none → s.phase = .idle → P s → P (s.reject k)
  accept : ∀ (s : State) (op : BitVec 2), (readsString (instrOfOp op) = true → s.inLen.toNat ≤ s.lIn) → P s →
    P (s.accept op)
  inLen : ∀ (s : State) (v : BitVec 8), s.phase = .idle → P s → P { s with inLen := v }
  pidIn : ∀ (s : State) (p : Word), s.phase = .idle → P s → P { s with pidIn := p }
  inBuf : ∀ (s : State) (i : Nat) (b : Byte), s.phase = .idle → P s → P { s with inBuf := s.inBuf.set i b }
  reset : ∀ s : State, P s.blockReset

namespace KeptByOperations

variable {P : State → Prop} (hP : KeptByOperations P)
include hP

theorem exec {i : Instr} {s t : State} (h : exec i s = .next t) (hs : P s) : P t := by
  rcases exec_cases i s with ⟨r, hr, hx⟩ | ⟨r, hr, -, hx⟩
  · cases hx.symm.trans h
    exact hP.word s s.stringOperand r (hr.imp And.right And.right) hs
  · cases hx.symm.trans h
    exact hP.string s s.pidIn r (hr.imp And.right And.right) hs

theorem cmdWrite {s : State} (hidle : s.phase = .idle) (c : Byte) (hs : P s) : P (s.cmdWrite c) := by
  rcases s.cmdWrite_cases c with ⟨-, h⟩ | ⟨-, -, -, h⟩ | ⟨-, hfits, h⟩
  · rw [h]; exact hP.reject s .badCmd nofun hidle hs
  · rw [h]; exact hP.reject s .badLen nofun hidle hs
  · rw [h]; exact hP.accept s _ hfits hs

theorem hostWrite {s : State} (r : RegNum) (d : Word) (hs : P s) : P (s.hostWrite r d) := by
  rcases s.hostWrite_cases r d with h | ⟨hidle, -, h⟩ | ⟨hidle, h⟩ | ⟨hidle, h⟩ | ⟨hidle, i, h⟩
  · rw [h]; exact hs
  · rw [h]; exact hP.cmdWrite hidle _ hs
  · rw [h]; exact hP.inLen s _ hidle hs
  · rw [h]; exact hP.pidIn s _ hidle hs
  · rw [h]; exact hP.inBuf s i _ hidle hs

theorem hostOp {s : State} (op : HostOp) (hs : P s) : P (s.hostOp op) := by
  rcases s.hostOp_cases op with ⟨r, d, -, h⟩ | ⟨-, h⟩ | ⟨l, rs, n, h⟩
  · rw [h]; exact hP.hostWrite r d hs
  · rw [h]; exact hP.reset s
  · rw [h]; exact hP.frame s l s.schedule rs n hs

/-- Every step is made of the named operations. -/
theorem step {s t : State} (hs : P s) (h : step s = .next t) : P t := by
  have hturn (l : List HostOp) : P { s with schedule := s.schedule.tail, host := l } :=
    hP.frame s l _ s.reads s.draws hs
  rcases step_cases h with ⟨-, -, hx⟩ | ⟨-, -, rfl⟩ | ⟨-, -, rfl⟩ | ⟨op, rest, -, -, rfl⟩
  · exact hP.exec hx (hturn s.host)
  · exact hturn s.host
  · exact hturn s.host
  · exact hP.hostOp op (hturn rest)

end KeptByOperations

/-! ### STATUS -/

/-- A completed command's OK is 1 exactly when its CAUSE is NONE. -/
theorem statusLegal_of_completed {s : State} {k : Bool} (hp : s.phase = .idle) (hd : s.done = true) (ho : s.ok = k)
    (hc : s.cause = causeOfOk k) : StatusLegal s := by
  refine ⟨fun h => ?_, ?_, fun h => ?_⟩
  · cases hp.symm.trans h
  · rw [ho, hd, hc, causeOfOk_eq_none_iff, eq_self_iff_true, true_and]
  · cases hd.symm.trans h

theorem statusLegal_kept : KeptByOperations StatusLegal where
  frame _ _ _ _ _ hs := hs
  word _ _ r _ _ := statusLegal_of_completed (k := r.2) rfl rfl rfl rfl
  string _ _ r _ _ := statusLegal_of_completed (k := r.2) rfl rfl rfl rfl
  reject s k hk hidle _ := by
    refine ⟨fun h => ?_, iff_of_false nofun fun h => hk h.2, nofun⟩
    cases hidle.symm.trans h
  accept _ _ _ _ := statusLegal_of_clear rfl rfl rfl
  inLen _ _ _ hs := hs
  pidIn _ _ _ hs := hs
  inBuf _ _ _ _ hs := hs
  reset _ := statusLegal_of_clear rfl rfl rfl

/-- Settles O54: acceptance clears the fields, and completion and rejection set OK and CAUSE together. -/
theorem everyStepKeepsStatusLegal : Obligations.EveryStepKeepsStatusLegal :=
  fun _ _ => statusLegal_kept.step

/-! ### The result registers -/

theorem f2id_lt (s : List Byte) : (f2id s).1.toNat < 2 ^ 48 := by
  rcases f2id_cases s with ⟨p, -, h⟩ | ⟨-, h⟩
  · obtain ⟨-, -, -, hmax⟩ := f2id_word h
    rw [h]
    exact hmax.trans (by decide)
  · rw [h]
    decide

theorem c2id_lt (s : List Byte) : (c2id s).1.toNat < 2 ^ 48 := by
  by_cases hbad : s.length ≠ codeLength ∨ ∃ b ∈ s, alphaInv b = none
  · rw [c2id_of_no_code hbad]
    decide
  · push Not at hbad
    obtain ⟨hlen, hcode⟩ := hbad
    rw [c2id_of_code hlen hcode, BitVec.toNat_ofNat]
    exact (Nat.mod_le _ _).trans_lt (codeValue_lt_of_code hlen)

/-- A string that fits in OUT_BUF, written back, leaves zeros at and above OUT_LEN. -/
theorem resultsLegal_wbStr (s : State) {t : List Byte} (k : Bool) (ht : t.length ≤ Config.outBufSize) :
    ResultsLegal (s.wbStr t k).finish := by
  have hsize : Config.outBufSize < 2 ^ 8 := by decide
  have hlen : (BitVec.ofNat 8 t.length).toNat = t.length := by rw [BitVec.toNat_ofNat]; omega
  unfold ResultsLegal
  simp only [State.finish_outBuf, State.finish_outLen, State.finish_pidOut, State.wbStr_outBuf, State.wbStr_outLen,
    State.wbStr_pidOut, outBufHolding_length, hlen]
  refine ⟨trivial, ht, fun b hb => ?_, rfl, .inl trivial⟩
  rw [outBufHolding_of_le t ht, List.drop_left] at hb
  exact List.eq_of_mem_replicate hb

theorem resultsLegal_kept : KeptByOperations ResultsLegal where
  frame _ _ _ _ _ hs := hs
  word s t r hr _ := by
    have hlt : r.1.toNat < 2 ^ 48 := by
      rcases hr with rfl | rfl
      · exact f2id_lt t
      · exact c2id_lt t
    refine ⟨List.length_replicate, Nat.zero_le _, ?_, extractLsb'_eq_zero_of_lt hlt 16, .inr rfl⟩
    exact fun b hb => List.eq_of_mem_replicate (List.mem_of_mem_drop hb)
  string s p r hr _ := by
    have hlen : r.1.length ≤ Config.outBufSize := by
      rcases hr with rfl | rfl
      · exact id2f_length_le p
      · exact id2c_length_le p
    exact resultsLegal_wbStr s r.2 hlen
  reject _ _ _ _ _ := resultsLegal_of_zero rfl rfl rfl
  accept _ _ _ hs := hs
  inLen _ _ _ hs := hs
  pidIn _ _ _ hs := hs
  inBuf _ _ _ _ hs := hs
  reset _ := resultsLegal_of_zero rfl rfl rfl

/-- Settles O55: both word functions stay below 2^48, and both string functions within OUT_BUF. -/
theorem everyStepKeepsResultsLegal : Obligations.EveryStepKeepsResultsLegal :=
  fun _ _ => resultsLegal_kept.step

/-! ### The operand of a string command -/

theorem operandLegal_of_idle {s : State} (h : s.phase = .idle) : OperandLegal s :=
  fun hbusy => nomatch hbusy.symm.trans h

theorem operandLegal_kept : KeptByOperations OperandLegal where
  frame _ _ _ _ _ hs := hs
  word _ _ _ _ _ := operandLegal_of_idle rfl
  string _ _ _ _ _ := operandLegal_of_idle rfl
  reject _ _ _ hidle _ := operandLegal_of_idle hidle
  accept _ _ hfits _ := fun _ => hfits
  inLen _ _ hidle _ := operandLegal_of_idle hidle
  pidIn _ _ hidle _ := operandLegal_of_idle hidle
  inBuf _ _ _ hidle _ := operandLegal_of_idle hidle
  reset _ := operandLegal_of_idle rfl

/-- Settles O56: acceptance checks the length, and no other operation ends BUSY or, while BUSY, changes an operand. -/
theorem everyStepKeepsOperandLegal : Obligations.EveryStepKeepsOperandLegal :=
  fun _ _ => operandLegal_kept.step

/-! ### The sentinels -/

theorem sentinelLegal_kept : KeptByOperations SentinelLegal where
  frame _ _ _ _ _ hs := hs
  word s t r hr _ := by
    intro _ (hfails : r.2 = false)
    refine ⟨?_, rfl, rfl⟩
    rcases hr with rfl | rfl
    · exact congrArg Prod.fst (f2id_zero_of_fails hfails)
    · exact congrArg Prod.fst (c2id_zero_of_fails hfails)
  string s p r hr _ := by
    intro _ (hfails : r.2 = false)
    have hempty : r.1 = [] := by
      rcases hr with rfl | rfl
      · exact id2f_eq_nil_of_fails hfails
      · cases hfails
    simp [hempty]
  reject _ _ _ _ _ := fun _ _ => ⟨rfl, rfl, rfl⟩
  accept _ _ _ _ := nofun
  inLen _ _ _ hs := hs
  pidIn _ _ _ hs := hs
  inBuf _ _ _ _ hs := hs
  reset _ := nofun

/-- Settles O57: a failing function answers its sentinel, and a rejection zeroes the results. -/
theorem everyStepKeepsSentinelLegal : Obligations.EveryStepKeepsSentinelLegal :=
  fun _ _ => sentinelLegal_kept.step

end Sys2Proof.Machine
end
